-- ==== Sys2Proof/Word.lean ====
section
/-! DEFINITION. The widths of the machine's values (00_scope.md R5, R7): all values are unsigned (R6). -/

namespace Sys2Proof

/-- A word: a 15-bit unsigned value, in [0, 32768) (00_scope.md R7, WORD_BITS). -/
abbrev Word := BitVec 15

/-- A 16-bit container: a memory cell or image word (00_scope.md R7, CELL_BITS), and a register, which holds a word unless
RMEM_HIGH = raw16 (92_eei_decisions.md D13). -/
abbrev Cell := BitVec 16

/-- A byte of the image (50_interfaces.md R155). The core itself has no bytes (20_memory.md R40). -/
abbrev Byte := BitVec 8

/-- A register index, in [0, 8) (00_scope.md R7, NREGS). -/
abbrev RegIx := Fin 8

end Sys2Proof
end

