-- ==== Sys2Proof/Machine/Arith.lean ====
section
/-! DEFINITION. The arithmetic of 45_alu.md: computed exactly as numbers or bit by bit, then reduced to 15 bits (R141) where
the rule reduces it. DESIGN CHOICE: with RMEM_HIGH = raw16 the rules are applied to values of 32768 or more as they are written
(LOG 10). -/

namespace Sys2Proof.Machine

/-- The low 15 bits: the mask that the rules of and, or and not apply. -/
def low15 (x : Cell) : Cell := x &&& 0x7fff

/-- (x + y) mod 32768 (R135). -/
def addResult (x y : Cell) : Cell := BitVec.ofNat 16 ((x.toNat + y.toNat) % 32768)

/-- (x * y) mod 32768: the exact product, then reduced (R136). -/
def multResult (x y : Cell) : Cell := BitVec.ofNat 16 ((x.toNat * y.toNat) % 32768)

/-- The unsigned remainder x mod y of the full values; `mod` calls it with y not 0 only (R137; LOG 10). -/
def modResult (x y : Cell) : Cell := BitVec.ofNat 16 (x.toNat % y.toNat)

/-- Bitwise and on 15 bits (R138). -/
def andResult (x y : Cell) : Cell := low15 (x &&& y)

/-- Bitwise or on 15 bits (R139). -/
def orResult (x y : Cell) : Cell := low15 (x ||| y)

/-- Each of the 15 bits inverted (R140). -/
def notResult (x : Cell) : Cell := low15 (~~~x)

end Sys2Proof.Machine
end

