-- ==== Sys2Proof/Config.lean ====
section
/-! DEFINITION. What the spec fixes for the machine, and the free values it leaves open (00_scope.md R5). -/

namespace Sys2Proof

/-- MEM_CELLS: the number of memory cells, addresses 0 to 32767 (20_memory.md R40). -/
def Config.memCells : Nat := 32768

/-- IMAGE_MAX_WORDS: the longest image admitted at load (50_interfaces.md R156). -/
def Config.imageMaxWords : Nat := 32768

/-- FREE VALUE (LOG 11). EXIT_FAULT less one, for each fault code: the exit status after a fatal error is this plus one, so
that it is some non-zero value and nothing more is known of it (50_interfaces.md R164; 92_eei_decisions.md D25). -/
opaque Config.exitFaultPred : Nat → Nat

/-- FREE VALUE (LOG 12). OUT_RENDER: the bytes the host sees for an output code of 128 or more (50_interfaces.md R158;
92_eei_decisions.md D17). No step reads it. -/
opaque Config.outRender : Cell → List Byte

/-- FREE VALUE (LOG 19). What a host with an answer of its own to each request for a line says to request `n`: none, it never answers;
the codes of a line; no codes, end-of-file (50_interfaces.md R154, R161). -/
opaque Config.hostLine : Nat → Option (List Word)

/-- The uses of a value for which the rules rely on its being a word; with RMEM_HIGH = raw16 a register can hold one that is
none, and the spec does not work out what these uses then do (92_eei_decisions.md D13). -/
inductive WordUse where
  /-- the entry that `push` adds (10_state.md R27) -/
  | stackEntry
  /-- the target of a jump, a call or a return (44_control_flow.md R125) -/
  | target
  /-- the address of `rmem` and `wmem` (20_memory.md R44) -/
  | address
  /-- the content that `wmem` stores (20_memory.md R43) -/
  | stored
  /-- the code that `out` emits (50_interfaces.md R158) -/
  | code
  /-- the result of `mod` (45_alu.md R137, R141); a remainder below 32768 is written as it is (LOG 10) -/
  | remainder
  deriving DecidableEq, Repr

/-- FREE VALUE (LOG 18). What a use makes of a value of 32768 or more, with RMEM_HIGH = raw16. -/
opaque Config.highValue : WordUse → Cell → Cell

end Sys2Proof
end

