-- ==== Sys2Proof/Syntax.lean ====
section
/-! DEFINITION. Instructions as syntax: one constructor per row of spec/opcode_table.json (30_encoding.md R65), over
operands as the word codec classifies them. -/

namespace Sys2Proof

/-- The verdict of the word codec on an operand cell (40_decode_and_dispatch.md R90, R94; 30_encoding.md R63). Which verdicts a
slot accepts depends on its kind (R64) and is checked when the instruction executes (R69). -/
inductive Operand where
  /-- a cell below 32768: the word itself -/
  | literal (v : Word)
  /-- a cell 32768 to 32775: a reference to register `cell - 32768` -/
  | register (r : RegIx)
  /-- a cell 32776 to 65535: the cell itself, kept for the diagnostic (60_exceptions.md R170) -/
  | invalid (c : Cell)
  deriving DecidableEq, Repr

/-- The twenty-two instructions, operands in cell order (30_encoding.md R65, R66). `inp` is the instruction the spec spells
`in`, a reserved word of Lean. -/
inductive Instr where
  | halt
  | set (a b : Operand)
  | push (a : Operand)
  | pop (a : Operand)
  | eq (a b c : Operand)
  | gt (a b c : Operand)
  | jmp (a : Operand)
  | jt (a b : Operand)
  | jf (a b : Operand)
  | add (a b c : Operand)
  | mult (a b c : Operand)
  | mod (a b c : Operand)
  | and (a b c : Operand)
  | or (a b c : Operand)
  | not (a b : Operand)
  | rmem (a b : Operand)
  | wmem (a b : Operand)
  | call (a : Operand)
  | ret
  | out (a : Operand)
  | inp (a : Operand)
  | noop
  deriving DecidableEq, Repr

end Sys2Proof
end

