-- ==== Sys2Proof/WellFormed.lean ====
section
/-! DEFINITION. Which operands each slot accepts (30_encoding.md R64, R65, R69): a well-formed instruction meets neither
IllegalWord nor ExpectedRegister. -/

namespace Sys2Proof

/-- Kind reg: the operand is a register reference (30_encoding.md R64). -/
def Operand.isReg : Operand → Bool
  | .register _ => true
  | .literal _ | .invalid _ => false

/-- Kind val: the operand is a literal or a register reference (30_encoding.md R64). -/
def Operand.isVal : Operand → Bool
  | .literal _ | .register _ => true
  | .invalid _ => false

/-- The operand is some cell's verdict: an invalid one holds a cell of 32776 or more (40_decode_and_dispatch.md R90). -/
def Operand.canonical : Operand → Bool
  | .literal _ | .register _ => true
  | .invalid c => decide (32776 ≤ c.toNat)

/-- Every operand is of its slot's kind, as the opcode map lists the kinds (30_encoding.md R65). -/
def Instr.wellFormed : Instr → Bool
  | .halt | .ret | .noop => true
  | .pop a | .inp a => a.isReg
  | .push a | .jmp a | .call a | .out a => a.isVal
  | .set a b | .not a b | .rmem a b => a.isReg && b.isVal
  | .jt a b | .jf a b | .wmem a b => a.isVal && b.isVal
  | .eq a b c | .gt a b c | .add a b c | .mult a b c | .mod a b c | .and a b c | .or a b c => a.isReg && b.isVal && c.isVal

/-- Every operand is some cell's verdict: the instruction is the decoding of some cells, legal or not. -/
def Instr.canonical : Instr → Bool
  | .halt | .ret | .noop => true
  | .pop a | .inp a | .push a | .jmp a | .call a | .out a => a.canonical
  | .set a b | .not a b | .rmem a b | .jt a b | .jf a b | .wmem a b => a.canonical && b.canonical
  | .eq a b c | .gt a b c | .add a b c | .mult a b c | .mod a b c | .and a b c | .or a b c =>
    a.canonical && b.canonical && c.canonical

end Sys2Proof
end

