-- ==== Sys2Proof/Decode.lean ====
section
/-! DEFINITION. The word codec, the decoder and the encoder, from 30_encoding.md and 40_decode_and_dispatch.md. The decoder
is total on lists of cells; it refuses an unknown opcode and a cut-off instruction by name. -/

namespace Sys2Proof

/-- Classify: the verdict on a cell (40_decode_and_dispatch.md R90). -/
def classify (c : Cell) : Operand :=
  if c.toNat < 32768 then .literal (BitVec.ofNat 15 c.toNat)
  else if h : c.toNat < 32776 then .register ⟨c.toNat - 32768, by omega⟩
  else .invalid c

/-- The cell a word is held in: bit 15 is 0 (20_memory.md R43). -/
def cellOfWord (v : Word) : Cell := v.setWidth 16

/-- The cell an operand assembles to (10_state.md R23; 30_encoding.md R63). -/
def cellOf : Operand → Cell
  | .literal v => cellOfWord v
  | .register r => BitVec.ofNat 16 (32768 + r.val)
  | .invalid c => c

/-- What the decoder answers. -/
inductive Decoded where
  /-- an instruction, and the cells after it -/
  | ok (i : Instr) (rest : List Cell)
  /-- the opcode cell is 22 to 65535 (30_encoding.md R68) -/
  | unknownOpcode (op : Cell)
  /-- the cell at this offset is needed and not there (40_decode_and_dispatch.md R95 steps 1 and 4) -/
  | truncated (offset : Nat)
  deriving DecidableEq, Repr

/-- One operand cell, after the opcode cell. -/
def take1 (mk : Operand → Instr) : List Cell → Decoded
  | a :: rest => .ok (mk (classify a)) rest
  | [] => .truncated 1

/-- Two operand cells. -/
def take2 (mk : Operand → Operand → Instr) : List Cell → Decoded
  | a :: b :: rest => .ok (mk (classify a) (classify b)) rest
  | [_] => .truncated 2
  | [] => .truncated 1

/-- Three operand cells. -/
def take3 (mk : Operand → Operand → Operand → Instr) : List Cell → Decoded
  | a :: b :: c :: rest => .ok (mk (classify a) (classify b) (classify c)) rest
  | [_, _] => .truncated 3
  | [_] => .truncated 2
  | [] => .truncated 1

/-- Dispatch of the decoder on the opcode cell, compared raw (30_encoding.md R61), to the operand cells it calls for (R62, R65). -/
def decodeOp (op : Cell) (ws : List Cell) : Decoded :=
  match op.toNat with
  | 0 => .ok .halt ws
  | 1 => take2 .set ws
  | 2 => take1 .push ws
  | 3 => take1 .pop ws
  | 4 => take3 .eq ws
  | 5 => take3 .gt ws
  | 6 => take1 .jmp ws
  | 7 => take2 .jt ws
  | 8 => take2 .jf ws
  | 9 => take3 .add ws
  | 10 => take3 .mult ws
  | 11 => take3 .mod ws
  | 12 => take3 .and ws
  | 13 => take3 .or ws
  | 14 => take2 .not ws
  | 15 => take2 .rmem ws
  | 16 => take2 .wmem ws
  | 17 => take1 .call ws
  | 18 => .ok .ret ws
  | 19 => take1 .out ws
  | 20 => take1 .inp ws
  | 21 => .ok .noop ws
  | _ => .unknownOpcode op

/-- The decoder: the opcode cell, then the operand cells (40_decode_and_dispatch.md R95 steps 1 to 5). -/
def decode : List Cell → Decoded
  | [] => .truncated 0
  | op :: ws => decodeOp op ws

/-- The opcode cell of each instruction (30_encoding.md R65). -/
def Instr.opcode : Instr → Cell
  | .halt => 0
  | .set _ _ => 1
  | .push _ => 2
  | .pop _ => 3
  | .eq _ _ _ => 4
  | .gt _ _ _ => 5
  | .jmp _ => 6
  | .jt _ _ => 7
  | .jf _ _ => 8
  | .add _ _ _ => 9
  | .mult _ _ _ => 10
  | .mod _ _ _ => 11
  | .and _ _ _ => 12
  | .or _ _ _ => 13
  | .not _ _ => 14
  | .rmem _ _ => 15
  | .wmem _ _ => 16
  | .call _ => 17
  | .ret => 18
  | .out _ => 19
  | .inp _ => 20
  | .noop => 21

/-- The operands of an instruction in cell order (30_encoding.md R66). -/
def Instr.operands : Instr → List Operand
  | .halt | .ret | .noop => []
  | .pop a | .inp a | .push a | .jmp a | .call a | .out a => [a]
  | .set a b | .not a b | .rmem a b | .jt a b | .jf a b | .wmem a b => [a, b]
  | .eq a b c | .gt a b c | .add a b c | .mult a b c | .mod a b c | .and a b c | .or a b c => [a, b, c]

/-- The encoder: opcode cell, then operand cells in address order (30_encoding.md R60, R66). -/
def encode (i : Instr) : List Cell := i.opcode :: i.operands.map cellOf

/-- The low byte of a cell, first in the image (30_encoding.md R75). -/
def lowByte (c : Cell) : Byte := c.extractLsb' 0 8

/-- The high byte of a cell, second in the image. -/
def highByte (c : Cell) : Byte := c.extractLsb' 8 8

/-- The cell whose low and high bytes are given (50_interfaces.md R155). -/
def cellOfBytes (low high : Byte) : Cell := high ++ low

/-- The image words of a byte stream: consecutive bytes paired low first, an odd last byte dropped (50_interfaces.md R155, R156). -/
def imageWords : List Byte → List Cell
  | low :: high :: rest => cellOfBytes low high :: imageWords rest
  | _ => []

/-- The bytes of some cells as an image holds them (30_encoding.md R75). -/
def imageBytes : List Cell → List Byte
  | [] => []
  | c :: rest => lowByte c :: highByte c :: imageBytes rest

/-- The cells of an instruction whose bits are `w`, bit 0 the least significant bit of the first cell; bits from `nbits` on are
0, up to the longest instruction, four cells. -/
def tableCells (nbits w : Nat) : List Cell :=
  let v := w % 2 ^ nbits
  [BitVec.ofNat 16 v, BitVec.ofNat 16 (v / 2 ^ 16), BitVec.ofNat 16 (v / 2 ^ 32), BitVec.ofNat 16 (v / 2 ^ 48)]

/-- The host's question: the instruction the decoder reads from a table row's word. -/
def decodeTableWord (nbits w : Nat) : Option Instr :=
  match decode (tableCells nbits w) with
  | .ok i _ => some i
  | .unknownOpcode _ | .truncated _ => none

end Sys2Proof
end

