-- ==== Sys2Proof/Machine/State.lean ====
section
/-! DEFINITION. The state of the machine as plain data: the seven items of 10_state.md R20, the output sequence of
50_interfaces.md R158, and the parameters of the step (R20) in the field `env`; the reasons a step can stop; the state after reset. -/

namespace Sys2Proof.Machine

/-- Memory: (address, byte) pairs in one canonical form (Memory.wf): addresses strictly rising, below 65536, no entry equal to
what an unlisted address reads as. Cell `a` of the spec is byte `2 a` (low) and byte `2 a + 1` (high), the layout of the image
(50_interfaces.md R155); every access of the machine moves a whole cell (20_memory.md R40, R46). LOG 1. -/
abbrev Memory := List Host.Cell

/-- RUN (10_state.md R30). -/
inductive RunStatus where
  | running
  | halted
  | faulted
  deriving DecidableEq, Repr

/-- The sub-cause of an I/O error (60_exceptions.md R177). -/
inductive IoCause where
  | inputEof
  | outputWriteFailure
  deriving DecidableEq, Repr

/-- The fatal errors of the machine (60_exceptions.md R170). -/
inductive FaultKind where
  /-- an operand cell holds 32776 to 65535 (R172) -/
  | illegalWord
  /-- a reg-kind operand cell holds a literal (R173) -/
  | expectedRegister
  /-- the cell at pc holds 22 to 65535 (R174) -/
  | unknownOpcode
  /-- pop or ret on an empty stack (R175) -/
  | stackUnderflow
  /-- mod with divisor 0 (R176) -/
  | divisionByZero
  /-- end-of-file on input, or a failed write (R177) -/
  | ioError (cause : IoCause)
  /-- a fetch past the last cell, or the return address of a call at 32766 (R178) -/
  | addressOutOfRange
  /-- rmem of a cell that holds 32768 or more (R179) -/
  | rawWordOutOfRange
  deriving DecidableEq, Repr

/-- The last field of a fault record: the offending cell, or for AddressOutOfRange the address (10_state.md R31). -/
inductive Offending where
  | cell (c : Cell)
  | address (a : Nat)
  deriving DecidableEq, Repr

/-- FAULT (10_state.md R31; 60_exceptions.md R171): the code, the pc of the faulting instruction, the opcode cell if it could
be fetched, the offending cell or address if there is one. -/
structure FaultRecord where
  kind : FaultKind
  pc : BitVec 16
  opcode : Option Cell
  offending : Option Offending
  deriving DecidableEq, Repr

/-- BEYOND_IMAGE (20_memory.md R45): cells past the image exist and hold 0, or every access past it faults. LOG 8. -/
inductive BeyondImage where
  | zero
  | fault (imageLength : Nat)
  deriving DecidableEq, Repr

/-- RET_EMPTY (44_control_flow.md R130): what `ret` does on an empty stack. LOG 9. -/
inductive RetEmpty where
  | fault
  | halt
  deriving DecidableEq, Repr

/-- RMEM_HIGH (46_rmem_wmem.md R145): what `rmem` does when the cell holds 32768 or more: RawWordOutOfRange, or the register
receives the 16-bit value (92_eei_decisions.md D13). LOG 10. -/
inductive RmemHigh where
  | fault
  | raw16
  deriving DecidableEq, Repr

/-- The host's answer to a request for a line: its codes in order, or end-of-file (50_interfaces.md R161). A code is a Word:
the host's contract has no other (LOG 7). -/
inductive HostAnswer where
  | line (codes : List Word)
  | endOfFile
  deriving DecidableEq, Repr

/-- What the host does once the answers listed in the state are used up: it stays silent, or it answers request `n` and those after it
with Config.hostLine, for ever if that is so (LOG 4, LOG 19). -/
inductive LaterAnswers where
  | silent
  | free (n : Nat)
  deriving DecidableEq, Repr

/-- The parameters of the step, which the spec does not count as state of the core (10_state.md R20): what the host will do,
and the machine's three named parameters. -/
structure Env where
  /-- BEYOND_IMAGE -/
  beyondImage : BeyondImage
  /-- RET_EMPTY -/
  retEmpty : RetEmpty
  /-- RMEM_HIGH -/
  rmemHigh : RmemHigh
  /-- the host's next answers to requests for a line, the first one first (LOG 4) -/
  answers : List HostAnswer
  /-- its answers after those: none, or free ones without end (LOG 4, LOG 19) -/
  later : LaterAnswers
  /-- how many more writes the host accepts before it fails one; none: it accepts every write (LOG 5) -/
  writesLeft : Option Nat
  deriving DecidableEq, Repr

/-- The state of the machine (10_state.md R20). Registers, stack entries and output codes are held in 16-bit containers, as
RMEM_HIGH = raw16 asks for registers (92_eei_decisions.md D13); with RMEM_HIGH = fault each holds a 15-bit word, an invariant
(Inv in Sys2Proof/Safety.lean). LOG 10. -/
structure State where
  /-- MEM -/
  mem : Memory
  /-- x[0] to x[7] (R22) -/
  regs : Vector Cell 8
  /-- STK, the top first (R27) -/
  stack : List Cell
  /-- the instruction pointer (R25) -/
  pc : BitVec 16
  /-- INBUF, the front first (R29) -/
  inbuf : List Word
  /-- RUN (R30) -/
  run : RunStatus
  /-- FAULT (R31) -/
  fault : Option FaultRecord
  /-- the run's output: every code accepted so far, the oldest first (50_interfaces.md R158) -/
  output : List Cell
  /-- the parameters of the step -/
  env : Env
  deriving DecidableEq, Repr

/-- Why a step cannot be taken. The spec's fatal errors are no such reason: they are next states (60_exceptions.md R171). -/
inductive Fault where
  /-- raised by `step` in a HALTED state: the run has ended and no step exists (10_state.md R30; 93 U24). Safe. -/
  | runHalted
  /-- raised by `step` in a FAULTED state: the run has ended and no step exists (10_state.md R30; 93 U24). Safe. -/
  | runFaulted
  deriving DecidableEq, Repr

/-- Why the model answers nothing. -/
inductive Refusal where
  /-- raised by `exec` for an instruction that has no meaning yet; no arm does. Safe. -/
  | notModelled (mnemonic : String)
  /-- raised by `boot`: an image of more than 32768 words is not admitted (50_interfaces.md R156). Safe. -/
  | imageTooLong
  deriving DecidableEq, Repr

/-- What a step and a meaning answer. -/
abbrev Result := Host.Outcome State Fault Refusal

/-- The parameters the hardware takes (00_scope.md R5), with a host that is silent and accepts every write (LOG 4, LOG 5). -/
def Env.initial : Env where
  beyondImage := .zero
  retEmpty := .fault
  rmemHigh := .fault
  answers := []
  later := .silent
  writesLeft := none

/-- The state after reset with no image (70_reset_and_hazards.md R190): every register holds the suggested REG_INIT, 0 (LOG 2). -/
def State.reset : State where
  mem := []
  regs := Vector.replicate 8 0
  stack := []
  pc := 0
  inbuf := []
  run := .running
  fault := none
  output := []
  env := Env.initial

end Sys2Proof.Machine
end

