-- ==== Sys2Proof/Machine/Ops.lean ====
section
/-! DEFINITION. The named operations over memory, registers, stack, instruction pointer and host, taking a fault, fetching an
instruction, and booting. -/

namespace Sys2Proof.Machine

/-! ### Memory as bytes -/

/-- What an unlisted address reads as: memory past the image is 0 (20_memory.md R45). -/
def unlistedByte : Byte := 0

/-- The byte at an address. -/
def readByte : Memory → Nat → Byte
  | [], _ => unlistedByte
  | (a, b) :: m, k => if a = k then b else readByte m k

/-- Memory with no entry at an address. -/
def eraseByte : Memory → Nat → Memory
  | [], _ => []
  | (a, b) :: m, k => if a = k then eraseByte m k else (a, b) :: eraseByte m k

/-- Memory with an entry put in its place by address. -/
def insertByte : Memory → Nat → Byte → Memory
  | [], k, v => [(k, v)]
  | (a, b) :: m, k, v => if k < a then (k, v) :: (a, b) :: m else (a, b) :: insertByte m k v

/-- Memory with one byte replaced; writing what an unlisted address reads as removes the entry. -/
def writeByte (m : Memory) (k : Nat) (v : Byte) : Memory :=
  if v = unlistedByte then eraseByte m k else insertByte (eraseByte m k) k v

/-- The canonical form from an address on: addresses rise strictly, lie below 65536 (two bytes for each of 32768 cells), and no
entry holds what an unlisted address reads as. -/
def canonicalFrom : Nat → Memory → Bool
  | _, [] => true
  | lo, (a, b) :: m => decide (lo ≤ a) && decide (a < 65536) && decide (b ≠ unlistedByte) && canonicalFrom (a + 1) m

/-- The canonical form of memory: equal memories are equal lists. -/
def Memory.wf (m : Memory) : Bool := canonicalFrom 0 m

/-! ### Memory as cells -/

/-- MemRead: the whole cell at an address, unchanged (20_memory.md R42). -/
def memRead (m : Memory) (a : Nat) : Cell := cellOfBytes (readByte m (2 * a)) (readByte m (2 * a + 1))

/-- The whole cell at an address replaced, and only that cell (20_memory.md R43). -/
def memWriteCell (m : Memory) (a : Nat) (c : Cell) : Memory :=
  writeByte (writeByte m (2 * a) (lowByte c)) (2 * a + 1) (highByte c)

/-- Consecutive cells replaced; cells past the last address are dropped. -/
def memWriteCells : Memory → Nat → List Cell → Memory
  | m, _, [] => m
  | m, a, c :: cs => if a < Config.memCells then memWriteCells (memWriteCell m a c) (a + 1) cs else m

/-- The bound below which a cell can be accessed: every cell, or with BEYOND_IMAGE = fault the image's (20_memory.md R45;
40_decode_and_dispatch.md R93). -/
def memBound (e : Env) : Nat :=
  match e.beyondImage with
  | .zero => Config.memCells
  | .fault n => min n Config.memCells

/-! ### Registers, stack, instruction pointer, run status -/

/-- x[r] (10_state.md R22). -/
def readReg (s : State) (r : RegIx) : Cell := s.regs[r.val]

/-- x[r] <- v (10_state.md R22). -/
def writeReg (s : State) (r : RegIx) (v : Cell) : State := { s with regs := s.regs.set r.val v r.isLt }

/-- MemWrite (20_memory.md R43). -/
def storeCell (s : State) (a v : Cell) : State := { s with mem := memWriteCell s.mem a.toNat v }

/-- Push (10_state.md R27): always succeeds. -/
def pushEntry (s : State) (v : Cell) : State := { s with stack := v :: s.stack }

/-- The state with the given entries on the stack. -/
def withStack (s : State) (entries : List Cell) : State := { s with stack := entries }

/-- Fall-through past an instruction of `n` cells (40_decode_and_dispatch.md R100): from a fetched instruction the sum is at
most 32768, so the 16-bit pointer does not wrap. -/
def advance (s : State) (n : Nat) : State := { s with pc := s.pc + BitVec.ofNat 16 n }

/-- pc <- t: a target is an absolute cell address (44_control_flow.md R125). -/
def jumpTo (s : State) (t : Cell) : State := { s with pc := t }

/-- RUN <- HALTED, all else unchanged (41_halt_noop.md R110). -/
def haltRun (s : State) : State := { s with run := .halted }

/-! ### Taking a fault -/

/-- What an instruction raises: the error and the offending cell or address (60_exceptions.md R170). -/
structure Raised where
  kind : FaultKind
  offending : Option Offending
  deriving DecidableEq, Repr

/-- The state after a fatal error (60_exceptions.md R171): RUN and FAULT change and nothing else, pc stays on the faulting
instruction. There is no handler and no return (R183). -/
def faulted (s : State) (opcode : Option Cell) (r : Raised) : State :=
  { s with run := .faulted, fault := some { kind := r.kind, pc := s.pc, opcode := opcode, offending := r.offending } }

/-- Taking a fatal error raised by an instruction whose opcode cell is known. -/
def takeFault (s : State) (opcode : Cell) (r : Raised) : Result := .next (faulted s (some opcode) r)

/-- The number of a fatal error (60_exceptions.md R170, 92_eei_decisions.md D14). -/
def FaultKind.code : FaultKind → Nat
  | .illegalWord => 1
  | .expectedRegister => 2
  | .unknownOpcode => 3
  | .stackUnderflow => 4
  | .divisionByZero => 5
  | .ioError _ => 6
  | .addressOutOfRange => 7
  | .rawWordOutOfRange => 8

/-! ### Fetching an instruction -/

/-- Up to `n` consecutive cells from an address, as far as cells exist. -/
def fetchCells (s : State) : Nat → Nat → List Cell
  | 0, _ => []
  | n + 1, a => if a < memBound s.env then memRead s.mem a :: fetchCells s n (a + 1) else []

/-- The cells at pc, as many as the longest instruction has. A read has no side effect (20_memory.md R42), so cells past the
instruction do no harm. -/
def fetchWindow (s : State) : List Cell := fetchCells s 4 s.pc.toNat

/-- What a fetch answers: an instruction, or a fatal error with the opcode cell if it could be fetched. -/
inductive Fetched where
  | instr (i : Instr)
  | raised (opcode : Option Cell) (r : Raised)
  deriving DecidableEq, Repr

/-- Decode(pc), steps 1 to 4 (40_decode_and_dispatch.md R95, R93): AddressOutOfRange at the first missing cell, UnknownOpcode before
any operand is fetched. -/
def fetchInstr (s : State) : Fetched :=
  match decode (fetchWindow s) with
  | .ok i _ => .instr i
  | .unknownOpcode op => .raised (some op) { kind := .unknownOpcode, offending := some (.cell op) }
  | .truncated k =>
    .raised (fetchWindow s).head? { kind := .addressOutOfRange, offending := some (.address (s.pc.toNat + k)) }

/-! ### The data access of rmem and wmem, the return address of call -/

/-- A data address that is a word exists unless BEYOND_IMAGE = fault and it lies past the image (20_memory.md R44, R45); one of
32768 or more names no cell (R40). -/
def checkAddress (s : State) (a : Cell) : Except Raised Unit :=
  if a.toNat < memBound s.env then .ok ()
  else .error { kind := .addressOutOfRange, offending := some (.address a.toNat) }

/-- What RMEM_HIGH makes of a cell that `rmem` has read (46_rmem_wmem.md R145; 92_eei_decisions.md D13; LOG 10). -/
def loadedCell (h : RmemHigh) (c : Cell) : Except Raised Cell :=
  if c.toNat < 32768 then .ok c
  else
    match h with
    | .fault => .error { kind := .rawWordOutOfRange, offending := some (.cell c) }
    | .raw16 => .ok c

/-- The raw cell at an address, unclassified (46_rmem_wmem.md R145). -/
def loadCell (s : State) (a : Cell) : Except Raised Cell :=
  match checkAddress s a with
  | .error r => .error r
  | .ok () => loadedCell s.env.rmemHigh (memRead s.mem a.toNat)

/-- The return address of a call, pc + 2 (44_control_flow.md R129). -/
def returnAddress (s : State) : Except Raised Cell :=
  if s.pc.toNat + 2 < 32768 then .ok (BitVec.ofNat 16 (s.pc.toNat + 2))
  else .error { kind := .addressOutOfRange, offending := some (.address (s.pc.toNat + 2)) }

/-! ### The host's streams -/

/-- What EmitChar answers. -/
inductive Emitted where
  | accepted (s : State)
  | failed
  deriving DecidableEq, Repr

/-- EmitChar (50_interfaces.md R158): the host accepts the code, which joins the output, or fails the write. -/
def emitChar (s : State) (v : Cell) : Emitted :=
  match s.env.writesLeft with
  | none => .accepted { s with output := s.output ++ [v] }
  | some 0 => .failed
  | some (n + 1) => .accepted { s with output := s.output ++ [v], env := { s.env with writesLeft := some n } }

/-- The host's answer to a request for a line, if it gives one, and the parameters with that answer used up (50_interfaces.md R161,
R162): the first one listed, after those a free one or none (LOG 4, LOG 19). -/
def nextAnswer (e : Env) : Option (HostAnswer × Env) :=
  match e.answers with
  | a :: more => some (a, { e with answers := more })
  | [] =>
    match e.later with
    | .silent => none
    | .free n => (Config.hostLine n).map fun codes => (.line codes, { e with later := .free (n + 1) })

/-- What NextInput answers. -/
inductive InputResult where
  | code (v : Word) (s : State)
  | endOfFile
  | waiting
  deriving DecidableEq, Repr

/-- NextInput (50_interfaces.md R160 to R162; 47_out_in.md R151): the front of the buffer, refilled with one host line when
empty; an answer of no characters is end-of-file (92_eei_decisions.md D18). -/
def nextInput (s : State) : InputResult :=
  match s.inbuf with
  | c :: rest => .code c { s with inbuf := rest }
  | [] =>
    match nextAnswer s.env with
    | none => .waiting
    | some (.endOfFile, _) => .endOfFile
    | some (.line [], _) => .endOfFile
    | some (.line (c :: rest), e) => .code c { s with inbuf := rest, env := e }

/-! ### Boot and the end of a run -/

/-- BEYOND_IMAGE with the length of the image that was loaded. -/
def BeyondImage.loaded (b : BeyondImage) (words : Nat) : BeyondImage :=
  match b with
  | .zero => .zero
  | .fault _ => .fault words

/-- Reset with an image (70_reset_and_hazards.md R190, R191): the loader fills memory (50_interfaces.md R155, R156), the other
state takes its reset values, the registers those of REG_INIT. An image of more than 32768 words is refused. -/
def boot (regInit : Vector Word 8) (env : Env) (image : List Byte) : Result :=
  if (imageWords image).length ≤ Config.imageMaxWords then
    .next { State.reset with
      mem := memWriteCells [] 0 (imageWords image)
      regs := Vector.ofFn fun r => cellOfWord regInit[r.val]
      env := { env with beyondImage := env.beyondImage.loaded (imageWords image).length } }
  else .refused .imageTooLong

/-- The exit status of an ended run (50_interfaces.md R164): 0 on HALTED, some non-zero value on FAULTED. -/
def exitStatus (s : State) : Option Nat :=
  match s.run with
  | .running => none
  | .halted => some 0
  | .faulted => some (Config.exitFaultPred ((s.fault.map fun f => f.kind.code).getD 0) + 1)

/-- The bytes the host sees for one code (50_interfaces.md R158): the code itself below 128, OUT_RENDER from there on. -/
def hostBytes (v : Cell) : List Byte := if v.toNat < 128 then [BitVec.ofNat 8 v.toNat] else Config.outRender v

end Sys2Proof.Machine
end

