-- ==== Sys2Proof/Machine/Operands.lean ====
section
/-! DEFINITION. The operand kinds and the six formats (30_encoding.md R64, R66): operand cells are checked in the order w1, w2, w3, and
sources are read before any write (40_decode_and_dispatch.md R95 to R97). -/

namespace Sys2Proof.Machine

/-- IllegalWord on an operand cell (60_exceptions.md R172). -/
def illegalWord (c : Cell) : Raised := { kind := .illegalWord, offending := some (.cell c) }

/-- ExpectedRegister on an operand cell (60_exceptions.md R173). -/
def expectedRegister (c : Cell) : Raised := { kind := .expectedRegister, offending := some (.cell c) }

/-- Resolve: the value a source operand stands for, one level deep (40_decode_and_dispatch.md R91). It is a word where the
registers are. -/
def resolve (s : State) : Operand → Except Raised Cell
  | .literal v => .ok (cellOfWord v)
  | .register r => .ok (readReg s r)
  | .invalid c => .error (illegalWord c)

/-- AsReg: the register a destination operand names (40_decode_and_dispatch.md R92). -/
def asReg : Operand → Except Raised RegIx
  | .register r => .ok r
  | .literal v => .error (expectedRegister (cellOfWord v))
  | .invalid c => .error (illegalWord c)

/-- The value that a use makes of a resolved one: a word is used as it is; what is no word comes from a register with
RMEM_HIGH = raw16 and gives a free value (92_eei_decisions.md D13; LOG 18). -/
def usedAs (u : WordUse) (v : Cell) : Cell := if v.toNat < 32768 then v else Config.highValue u v

/-- Format RV: destination and source. -/
def readRV (s : State) (a b : Operand) : Except Raised (RegIx × Cell) :=
  match asReg a with
  | .error r => .error r
  | .ok d =>
    match resolve s b with
    | .error r => .error r
    | .ok x => .ok (d, x)

/-- Format VV: two sources. -/
def readVV (s : State) (a b : Operand) : Except Raised (Cell × Cell) :=
  match resolve s a with
  | .error r => .error r
  | .ok x =>
    match resolve s b with
    | .error r => .error r
    | .ok y => .ok (x, y)

/-- Format RVV: destination and two sources. -/
def readRVV (s : State) (a b c : Operand) : Except Raised (RegIx × Cell × Cell) :=
  match asReg a with
  | .error r => .error r
  | .ok d =>
    match readVV s b c with
    | .error r => .error r
    | .ok (x, y) => .ok (d, x, y)

end Sys2Proof.Machine
end

