-- ==== Sys2Proof/Machine/Alu.lean ====
section
/-! DEFINITION. add, mult, mod, and, or, not (45_alu.md). -/

namespace Sys2Proof.Machine

/-- `add a b c` (R135). -/
def execAdd (a b c : Operand) (s : State) : Result :=
  match readRVV s a b c with
  | .error r => takeFault s (Instr.add a b c).opcode r
  | .ok (d, x, y) => .next (advance (writeReg s d (addResult x y)) 4)

/-- `mult a b c` (R136). -/
def execMult (a b c : Operand) (s : State) : Result :=
  match readRVV s a b c with
  | .error r => takeFault s (Instr.mult a b c).opcode r
  | .ok (d, x, y) => .next (advance (writeReg s d (multResult x y)) 4)

/-- `mod a b c` (R137): the offending cell of DivisionByZero is w3 (60_exceptions.md R170). DESIGN CHOICE: with RMEM_HIGH = raw16
the remainder is that of the full 16-bit values, and one below 32768 is written as it is (LOG 10); a greater one gives a free value
(LOG 18). -/
def execMod (a b c : Operand) (s : State) : Result :=
  match readRVV s a b c with
  | .error r => takeFault s (Instr.mod a b c).opcode r
  | .ok (d, x, y) =>
    if y.toNat = 0 then
      takeFault s (Instr.mod a b c).opcode { kind := .divisionByZero, offending := some (.cell (cellOf c)) }
    else .next (advance (writeReg s d (usedAs .remainder (modResult x y))) 4)

/-- `and a b c` (R138). -/
def execAnd (a b c : Operand) (s : State) : Result :=
  match readRVV s a b c with
  | .error r => takeFault s (Instr.and a b c).opcode r
  | .ok (d, x, y) => .next (advance (writeReg s d (andResult x y)) 4)

/-- `or a b c` (R139). -/
def execOr (a b c : Operand) (s : State) : Result :=
  match readRVV s a b c with
  | .error r => takeFault s (Instr.or a b c).opcode r
  | .ok (d, x, y) => .next (advance (writeReg s d (orResult x y)) 4)

/-- `not a b` (R140). -/
def execNot (a b : Operand) (s : State) : Result :=
  match readRV s a b with
  | .error r => takeFault s (Instr.not a b).opcode r
  | .ok (d, x) => .next (advance (writeReg s d (notResult x)) 3)

end Sys2Proof.Machine
end

