-- ==== Sys2Proof/Machine/Flags.lean ====
section
/-! DEFINITION. The machine has no flags (10_state.md R32): a comparison writes 1 or 0 to a general register, and a conditional
jump tests a word. These are those results. DESIGN CHOICE: with RMEM_HIGH = raw16 a value of 32768 or more is compared or tested as it
stands (LOG 10). -/

namespace Sys2Proof.Machine

/-- The value a comparison writes: 1 or 0 (43_eq_gt.md R120, R121). -/
def truthCell (b : Bool) : Cell := if b then 1 else 0

/-- The result of eq: equality of the two values as numbers (43_eq_gt.md R120). -/
def eqResult (x y : Cell) : Cell := truthCell (decide (x.toNat = y.toNat))

/-- The result of gt: the first source is strictly greater, unsigned (43_eq_gt.md R121). -/
def gtResult (x y : Cell) : Cell := truthCell (decide (y.toNat < x.toNat))

/-- The condition of jt; that of jf is its complement (44_control_flow.md R127, R128). -/
def truthy (x : Cell) : Bool := decide (x.toNat ≠ 0)

end Sys2Proof.Machine
end

