-- ==== Sys2Proof/Machine/ControlFlow.lean ====
section
/-! DEFINITION. jmp, jt, jf, call and ret (44_control_flow.md). -/

namespace Sys2Proof.Machine

/-- `jmp a` (R126). -/
def execJmp (a : Operand) (s : State) : Result :=
  match resolve s a with
  | .error r => takeFault s (Instr.jmp a).opcode r
  | .ok t => .next (jumpTo s (usedAs .target t))

/-- `jt a b` (R127): the target is checked even when the jump is not taken (40_decode_and_dispatch.md R96). -/
def execJt (a b : Operand) (s : State) : Result :=
  match readVV s a b with
  | .error r => takeFault s (Instr.jt a b).opcode r
  | .ok (x, t) => .next (if truthy x then jumpTo s (usedAs .target t) else advance s 3)

/-- `jf a b` (R128). -/
def execJf (a b : Operand) (s : State) : Result :=
  match readVV s a b with
  | .error r => takeFault s (Instr.jf a b).opcode r
  | .ok (x, t) => .next (if truthy x then advance s 3 else jumpTo s (usedAs .target t))

/-- `call a` (R129): the target, then the return address, then the push. -/
def execCall (a : Operand) (s : State) : Result :=
  match resolve s a with
  | .error r => takeFault s (Instr.call a).opcode r
  | .ok t =>
    match returnAddress s with
    | .error r => takeFault s (Instr.call a).opcode r
    | .ok back => .next (jumpTo (pushEntry s back) (usedAs .target t))

/-- `ret` on an empty stack, by the parameter RET_EMPTY (R130). -/
def retOnEmpty (s : State) : Result :=
  match s.env.retEmpty with
  | .fault => takeFault s Instr.ret.opcode { kind := .stackUnderflow, offending := none }
  | .halt => .next (haltRun s)

/-- `ret` (R130). -/
def execRet (s : State) : Result :=
  match s.stack with
  | [] => retOnEmpty s
  | t :: rest => .next (jumpTo (withStack s rest) (usedAs .target t))

end Sys2Proof.Machine
end

