-- ==== Sys2Proof/Machine/EqGt.lean ====
section
/-! DEFINITION. eq and gt (43_eq_gt.md). -/

namespace Sys2Proof.Machine

/-- `eq a b c` (R120). -/
def execEq (a b c : Operand) (s : State) : Result :=
  match readRVV s a b c with
  | .error r => takeFault s (Instr.eq a b c).opcode r
  | .ok (d, x, y) => .next (advance (writeReg s d (eqResult x y)) 4)

/-- `gt a b c` (R121). -/
def execGt (a b c : Operand) (s : State) : Result :=
  match readRVV s a b c with
  | .error r => takeFault s (Instr.gt a b c).opcode r
  | .ok (d, x, y) => .next (advance (writeReg s d (gtResult x y)) 4)

end Sys2Proof.Machine
end

