-- ==== Sys2Proof/Machine/HaltNoop.lean ====
section
/-! DEFINITION. halt and noop (41_halt_noop.md). -/

namespace Sys2Proof.Machine

/-- `halt` (R110). -/
def execHalt (s : State) : Result := .next (haltRun s)

/-- `noop` (R111). -/
def execNoop (s : State) : Result := .next (advance s 1)

end Sys2Proof.Machine
end

