-- ==== Sys2Proof/Machine/OutIn.lean ====
section
/-! DEFINITION. out and in (47_out_in.md). -/

namespace Sys2Proof.Machine

/-- `out a` (R150). -/
def execOut (a : Operand) (s : State) : Result :=
  match resolve s a with
  | .error r => takeFault s (Instr.out a).opcode r
  | .ok v =>
    match emitChar s (usedAs .code v) with
    | .failed => takeFault s (Instr.out a).opcode { kind := .ioError .outputWriteFailure, offending := none }
    | .accepted t => .next (advance t 2)

/-- `in a` (R151): the operand is checked before any input is asked for; while the host is silent the state is unchanged and the same
step is tried again (00_scope.md R9, 50_interfaces.md R162; LOG 6). -/
def execInp (a : Operand) (s : State) : Result :=
  match asReg a with
  | .error r => takeFault s (Instr.inp a).opcode r
  | .ok d =>
    match nextInput s with
    | .waiting => .next s
    | .endOfFile => takeFault s (Instr.inp a).opcode { kind := .ioError .inputEof, offending := none }
    | .code v t => .next (advance (writeReg t d (cellOfWord v)) 2)

end Sys2Proof.Machine
end

