-- ==== Sys2Proof/Machine/RmemWmem.lean ====
section
/-! DEFINITION. rmem and wmem (46_rmem_wmem.md). -/

namespace Sys2Proof.Machine

/-- `rmem a b` (R145): the cell read is not classified. -/
def execRmem (a b : Operand) (s : State) : Result :=
  match readRV s a b with
  | .error r => takeFault s (Instr.rmem a b).opcode r
  | .ok (d, ea) =>
    match loadCell s (usedAs .address ea) with
    | .error r => takeFault s (Instr.rmem a b).opcode r
    | .ok v => .next (advance (writeReg s d v) 3)

/-- `wmem a b` (R146): the first operand is a source, the address. -/
def execWmem (a b : Operand) (s : State) : Result :=
  match readVV s a b with
  | .error r => takeFault s (Instr.wmem a b).opcode r
  | .ok (ea, v) =>
    match checkAddress s (usedAs .address ea) with
    | .error r => takeFault s (Instr.wmem a b).opcode r
    | .ok () => .next (advance (storeCell s (usedAs .address ea) (usedAs .stored v)) 3)

end Sys2Proof.Machine
end

