-- ==== Sys2Proof/Machine/SetPushPop.lean ====
section
/-! DEFINITION. set, push and pop (42_set_push_pop.md). -/

namespace Sys2Proof.Machine

/-- `set a b` (R115). -/
def execSet (a b : Operand) (s : State) : Result :=
  match readRV s a b with
  | .error r => takeFault s (Instr.set a b).opcode r
  | .ok (d, x) => .next (advance (writeReg s d x) 3)

/-- `push a` (R116). -/
def execPush (a : Operand) (s : State) : Result :=
  match resolve s a with
  | .error r => takeFault s (Instr.push a).opcode r
  | .ok x => .next (advance (pushEntry s (usedAs .stackEntry x)) 2)

/-- `pop a` (R117): the operand is checked before the stack. -/
def execPop (a : Operand) (s : State) : Result :=
  match asReg a with
  | .error r => takeFault s (Instr.pop a).opcode r
  | .ok d =>
    match s.stack with
    | [] => takeFault s (Instr.pop a).opcode { kind := .stackUnderflow, offending := none }
    | v :: rest => .next (advance (writeReg (withStack s rest) d v) 2)

end Sys2Proof.Machine
end

