-- ==== Sys2Proof/Machine/Step.lean ====
section
/-! DEFINITION. One step of the machine (40_decode_and_dispatch.md R98), and placing an instruction where it is fetched next. -/

namespace Sys2Proof.Machine

/-- One step: none in a stopped state (10_state.md R30); else fetch and decode, a fatal error of which is taken, and execute. -/
def step (s : State) : Host.Outcome State Fault Refusal :=
  match s.run with
  | .halted => .fault .runHalted
  | .faulted => .fault .runFaulted
  | .running =>
    match fetchInstr s with
    | .instr i => exec i s
    | .raised op r => .next (faulted s op r)

/-- A state that will fetch at pc: running, and with room for the longest instruction before the last cell that exists. -/
def State.readyToFetch (s : State) : State :=
  if s.pc.toNat + 4 ≤ memBound s.env then { s with run := .running, fault := none }
  else { s with run := .running, fault := none, pc := 0, env := { s.env with beyondImage := .zero } }

/-- The state with a table row's instruction at pc (LOG 14): as loading an image that holds it there would leave memory. A state
that could not fetch it is made one that can. -/
def State.withFetchWord (s : State) (nbits w : Nat) : State :=
  { s.readyToFetch with mem := memWriteCells s.readyToFetch.mem s.readyToFetch.pc.toNat (tableCells nbits w) }

end Sys2Proof.Machine
end

