-- ==== Sys2Proof/Safety.lean ====
section
/-! DEFINITION. The terms in which claims speak of the machine: invariants, frames (what a step leaves unchanged), the
tables of the spec that range over all instructions, and the shape a decoding and its faults have in each format. -/

namespace Sys2Proof.Machine

/-! ### Invariants -/

/-- FAULT is none exactly while RUN is not FAULTED (10_state.md R31). -/
def FaultRecordMatchesRun (s : State) : Prop := s.run = .faulted ↔ s.fault ≠ none

/-- pc is one of its reachable values, 0 to 32768 (10_state.md R25). -/
def PcInReach (s : State) : Prop := s.pc.toNat ≤ 32768

/-- Every register, stack entry and output code is a word: below 32768 (10_state.md R22, R24, R27; 50_interfaces.md R158). -/
def HoldsWords (s : State) : Prop :=
  (∀ r, (readReg s r).toNat < 32768) ∧ (∀ v ∈ s.stack, v.toNat < 32768) ∧ ∀ v ∈ s.output, v.toNat < 32768

/-- The invariant every step keeps: memory in canonical form, FAULT matching RUN, and with RMEM_HIGH = fault, the value this
hardware takes, only words in registers, stack and output, and pc in reach. -/
def Inv (s : State) : Prop :=
  Memory.wf s.mem = true ∧ FaultRecordMatchesRun s ∧ (s.env.rmemHigh = .fault → HoldsWords s ∧ PcInReach s)

/-- A run that ended well: HALTED only (60_exceptions.md R171). -/
def EndedWell (s : State) : Prop := s.run = .halted

/-! ### Frames -/

/-- Every register reads as before. -/
def SameRegs (s t : State) : Prop := ∀ r, readReg t r = readReg s r

/-- Every register but one reads as before. -/
def SameRegsBut (d : RegIx) (s t : State) : Prop := ∀ r, r ≠ d → readReg t r = readReg s r

/-- Every memory cell reads as before. -/
def SameMem (s t : State) : Prop := ∀ a, memRead t.mem a = memRead s.mem a

/-- Every memory cell but one reads as before. -/
def SameMemBut (ea : Nat) (s t : State) : Prop := ∀ a, a ≠ ea → memRead t.mem a = memRead s.mem a

/-- Input buffer, output and the parameters of the step are as before. -/
def SameStreams (s t : State) : Prop := t.inbuf = s.inbuf ∧ t.output = s.output ∧ t.env = s.env

/-- RUN and FAULT are as before. -/
def SameRun (s t : State) : Prop := t.run = s.run ∧ t.fault = s.fault

/-- pc has advanced by `n` cells. For a fetched instruction the sum is at most 32768 and does not wrap (40_decode_and_dispatch.md R100). -/
def PcAdvances (s t : State) (n : Nat) : Prop := t.pc = s.pc + BitVec.ofNat 16 n

/-- Nothing but pc may differ. -/
def SameButPc (s t : State) : Prop :=
  SameRegs s t ∧ SameMem s t ∧ t.stack = s.stack ∧ SameStreams s t ∧ SameRun s t

/-- Nothing but register `d` and pc may differ: the register holds the number `v`, pc has advanced by `n`. -/
def WritesReg (s t : State) (d : RegIx) (v n : Nat) : Prop :=
  (readReg t d).toNat = v ∧ PcAdvances s t n ∧
    SameRegsBut d s t ∧ SameMem s t ∧ t.stack = s.stack ∧ SameStreams s t ∧ SameRun s t

/-- Nothing but the stack and pc may differ. -/
def SameButStackPc (s t : State) : Prop := SameRegs s t ∧ SameMem s t ∧ SameStreams s t ∧ SameRun s t

/-- The answer is the fatal error `kind`: RUN and FAULT change and nothing else (60_exceptions.md R171). -/
def FaultsWith (o : Result) (s : State) (kind : FaultKind) (opcode : Option Cell) (offending : Option Offending) : Prop :=
  o = .next { s with
    run := .faulted
    fault := some { kind := kind, pc := s.pc, opcode := opcode, offending := offending } }

/-- The answer with a change made to its next state. -/
def mapNext (f : State → State) : Result → Result
  | .next t => .next (f t)
  | .fault r => .fault r
  | .refused r => .refused r

/-! ### Data addresses -/

/-- `ea` is the address that `rmem` and `wmem` take from this operand: the resolved value, if that is a word. -/
def DataAddress (s : State) (a : Operand) (ea : Cell) : Prop := ∃ x, resolve s a = .ok x ∧ usedAs .address x = ea

/-! ### The host's answers -/

/-- In which order the host answers requests for a line: with the answers listed, one after another; then not at all, or with
Config.hostLine of one number after another, so that no end of them is implied (LOG 4, LOG 19). -/
def AnswersInOrder : Prop :=
  (∀ e a more, e.answers = a :: more → nextAnswer e = some (a, { e with answers := more })) ∧
  (∀ e, e.answers = [] → e.later = .silent → nextAnswer e = none) ∧
  (∀ e n, e.answers = [] → e.later = .free n →
    nextAnswer e = (Config.hostLine n).map fun codes => (.line codes, { e with later := .free (n + 1) }))

/-! ### The spec's tables over all instructions -/

/-- The number of operand cells of an opcode 0 to 21 (30_encoding.md R65). -/
def operandCount (op : Nat) : Nat :=
  if op ∈ [0, 18, 21] then 0
  else if op ∈ [2, 3, 6, 17, 19, 20] then 1
  else if op ∈ [1, 7, 8, 14, 15, 16] then 2
  else 3

/-- The destination operand of the twelve instructions that write a register (10_state.md R24). -/
def destination : Instr → Option Operand
  | .set a _ | .pop a | .eq a _ _ | .gt a _ _ | .add a _ _ | .mult a _ _ | .mod a _ _ | .and a _ _ | .or a _ _
  | .not a _ | .rmem a _ | .inp a => some a
  | .halt | .push _ | .jmp _ | .jt _ _ | .jf _ _ | .wmem _ _ | .call _ | .ret | .out _ | .noop => none

/-- What an instruction can raise once it is fetched (60_exceptions.md R180, less the A of an operand fetch). With BEYOND_IMAGE =
fault the data access of rmem and wmem raises AddressOutOfRange too (20_memory.md R45), and so it can with RMEM_HIGH = raw16,
where the address may be no word. -/
def mayRaise : Instr → List FaultKind
  | .halt | .noop => []
  | .set _ _ | .not _ _ | .eq _ _ _ | .gt _ _ _ | .add _ _ _ | .mult _ _ _ | .and _ _ _ | .or _ _ _ =>
    [.illegalWord, .expectedRegister]
  | .push _ | .jmp _ | .jt _ _ | .jf _ _ => [.illegalWord]
  | .wmem _ _ => [.illegalWord, .addressOutOfRange]
  | .pop _ => [.illegalWord, .expectedRegister, .stackUnderflow]
  | .mod _ _ _ => [.illegalWord, .expectedRegister, .divisionByZero]
  | .rmem _ _ => [.illegalWord, .expectedRegister, .rawWordOutOfRange, .addressOutOfRange]
  | .call _ => [.illegalWord, .addressOutOfRange]
  | .ret => [.stackUnderflow]
  | .out _ => [.illegalWord, .ioError .outputWriteFailure]
  | .inp _ => [.illegalWord, .expectedRegister, .ioError .inputEof]

/-! ### The shape of a decoding and its faults, by format (30_encoding.md R66) -/

/-- A running machine finds this opcode cell at pc. -/
def FindsOpcode (s : State) (op : Cell) : Prop :=
  s.run = .running ∧ s.pc.toNat < memBound s.env ∧ memRead s.mem s.pc.toNat = op

/-- An instruction whose `n` operand cells run past the last cell faults on its fetch, at the lowest missing address
(40_decode_and_dispatch.md R93, R95 step 4), whatever its other cells hold. -/
def CutOffFaults (op : Cell) (n : Nat) : Prop :=
  ∀ s, FindsOpcode s op → memBound s.env ≤ s.pc.toNat + n →
    FaultsWith (step s) s .addressOutOfRange (some op) (some (.address (memBound s.env)))

/-- Format R: cells `op R`. -/
def ShapeR (mk : Operand → Instr) (op : Cell) : Prop :=
  (∀ a rest, decode (op :: a :: rest) = .ok (mk (classify a)) rest) ∧
  CutOffFaults op 1 ∧
  (∀ s c, FaultsWith (exec (mk (.invalid c)) s) s .illegalWord (some op) (some (.cell c))) ∧
  (∀ s v, FaultsWith (exec (mk (.literal v)) s) s .expectedRegister (some op) (some (.cell (v.setWidth 16))))

/-- Format V: cells `op V`. -/
def ShapeV (mk : Operand → Instr) (op : Cell) : Prop :=
  (∀ a rest, decode (op :: a :: rest) = .ok (mk (classify a)) rest) ∧
  CutOffFaults op 1 ∧
  (∀ s c, FaultsWith (exec (mk (.invalid c)) s) s .illegalWord (some op) (some (.cell c)))

/-- Format RV: cells `op R V`. -/
def ShapeRV (mk : Operand → Operand → Instr) (op : Cell) : Prop :=
  (∀ a b rest, decode (op :: a :: b :: rest) = .ok (mk (classify a) (classify b)) rest) ∧
  CutOffFaults op 2 ∧
  (∀ s c b, FaultsWith (exec (mk (.invalid c) b) s) s .illegalWord (some op) (some (.cell c))) ∧
  (∀ s v b, FaultsWith (exec (mk (.literal v) b) s) s .expectedRegister (some op) (some (.cell (v.setWidth 16)))) ∧
  (∀ s d c, FaultsWith (exec (mk (.register d) (.invalid c)) s) s .illegalWord (some op) (some (.cell c)))

/-- Format VV: cells `op V V`. -/
def ShapeVV (mk : Operand → Operand → Instr) (op : Cell) : Prop :=
  (∀ a b rest, decode (op :: a :: b :: rest) = .ok (mk (classify a) (classify b)) rest) ∧
  CutOffFaults op 2 ∧
  (∀ s c b, FaultsWith (exec (mk (.invalid c) b) s) s .illegalWord (some op) (some (.cell c))) ∧
  (∀ s a x c, resolve s a = .ok x →
    FaultsWith (exec (mk a (.invalid c)) s) s .illegalWord (some op) (some (.cell c)))

/-- Format RVV: cells `op R V V`. -/
def ShapeRVV (mk : Operand → Operand → Operand → Instr) (op : Cell) : Prop :=
  (∀ a b c rest, decode (op :: a :: b :: c :: rest) = .ok (mk (classify a) (classify b) (classify c)) rest) ∧
  CutOffFaults op 3 ∧
  (∀ s w b c, FaultsWith (exec (mk (.invalid w) b c) s) s .illegalWord (some op) (some (.cell w))) ∧
  (∀ s v b c, FaultsWith (exec (mk (.literal v) b c) s) s .expectedRegister (some op) (some (.cell (v.setWidth 16)))) ∧
  (∀ s d w c, FaultsWith (exec (mk (.register d) (.invalid w) c) s) s .illegalWord (some op) (some (.cell w))) ∧
  (∀ s d b x w, resolve s b = .ok x →
    FaultsWith (exec (mk (.register d) b (.invalid w)) s) s .illegalWord (some op) (some (.cell w)))

end Sys2Proof.Machine
end

