-- ==== Sys2Proof/Certificates/Slice0/Obligations.lean ====
section
/-! DEFINITION. The statements for the provers, from the numbered rules of spec/. Shapes, frames and tables they name are
defined in Sys2Proof/Safety.lean. Where a statement says FaultsWith, that a fatal error leaves all but RUN and FAULT as it was
is R171, by the spec's decision D11; that every operand cell is checked, used or not, and in which order, is R95 and R96, by its
decision D9. A value that a rule takes to be a word is stated for words; that a register may hold 32768 or more with RMEM_HIGH =
raw16, and what a use makes of such a value, is LOG 10 and LOG 18. -/

open Sys2Proof Sys2Proof.Machine

/-! ### Encoding and decoding -/

/-- Words written out from the spec's encodings decode to the instructions they stand for (a sanity statement): the image bytes
of R75 and the worked examples of 41 to 47. -/
def Obligations.WorkedWordsDecode : Prop :=
  decode (imageWords [0x01, 0x00, 0x01, 0x80, 0x05, 0x00]) = .ok (.set (.register 1) (.literal 5)) [] ∧
  decode [9, 32768, 32769, 32770] = .ok (.add (.register 0) (.register 1) (.register 2)) [] ∧
  decode [11, 32768, 17, 5] = .ok (.mod (.register 0) (.literal 17) (.literal 5)) [] ∧
  decode [14, 32768, 1] = .ok (.not (.register 0) (.literal 1)) [] ∧
  decode [15, 32770, 100] = .ok (.rmem (.register 2) (.literal 100)) [] ∧
  decode [16, 100, 32768] = .ok (.wmem (.literal 100) (.register 0)) [] ∧
  decode [5, 32768, 9, 3] = .ok (.gt (.register 0) (.literal 9) (.literal 3)) [] ∧
  decode [8, 32769, 17] = .ok (.jf (.register 1) (.literal 17)) [] ∧
  decode [17, 4, 0, 0, 19, 66, 18] = .ok (.call (.literal 4)) [0, 0, 19, 66, 18] ∧
  decode [20, 32775] = .ok (.inp (.register 7)) [] ∧
  decode [2, 32776] = .ok (.push (.invalid 32776)) []

/-- R63, R90: the three classes by range and by bit pattern, and their payloads. -/
def Obligations.ClassifyGivesThreeVerdicts : Prop :=
  ∀ c : Cell,
    (c.toNat < 32768 →
      c.getLsbD 15 = false ∧ classify c = .literal (c.extractLsb' 0 15) ∧ (c.extractLsb' 0 15).toNat = c.toNat) ∧
    (32768 ≤ c.toNat → c.toNat < 32776 →
      c.getLsbD 15 = true ∧ c.extractLsb' 3 12 = 0 ∧
        ∃ r : RegIx, classify c = .register r ∧ r.val = c.toNat - 32768 ∧ r.val = (c.extractLsb' 0 3).toNat) ∧
    (32776 ≤ c.toNat → c.getLsbD 15 = true ∧ c.extractLsb' 3 12 ≠ 0 ∧ classify c = .invalid c)

/-- Every instruction that some cells encode, the well-formed ones among them, decodes from its encoding with every operand at
every value, whatever cells follow. -/
def Obligations.DecodeOfEncodeIsTheInstruction : Prop :=
  (∀ i : Instr, i.wellFormed = true → i.canonical = true) ∧
  ∀ (i : Instr) (rest : List Cell), i.canonical = true → decode (encode i ++ rest) = .ok i rest

/-- The other direction: what the decoder reads encodes to exactly the cells it read, so no bit of a cell is dropped. -/
def Obligations.EncodeOfDecodeIsTheCells : Prop :=
  ∀ (cs rest : List Cell) (i : Instr), decode cs = .ok i rest → cs = encode i ++ rest ∧ i.canonical = true

/-- R62: the opcode cell alone fixes the length, one plus the operand count of R65, whatever the operand cells hold. -/
def Obligations.LengthIsFixedByTheOpcode : Prop :=
  ∀ (op : Cell) (ws : List Cell), op.toNat < 22 →
    (operandCount op.toNat ≤ ws.length →
      ∃ i, decode (op :: ws) = .ok i (ws.drop (operandCount op.toNat)) ∧
        (encode i).length = 1 + operandCount op.toNat) ∧
    (ws.length < operandCount op.toNat → decode (op :: ws) = .truncated (ws.length + 1))

/-- R68, R174: every opcode cell from 22 to 65535 is unknown, whatever follows it, and executing one is the fatal error; that
32768 to 65535 are unknown too is the spec's decision D8. -/
def Obligations.UnknownOpcodeFaults : Prop :=
  (∀ (op : Cell) (ws : List Cell), 22 ≤ op.toNat → decode (op :: ws) = .unknownOpcode op) ∧
  ∀ (s : State) (op : Cell), FindsOpcode s op → 22 ≤ op.toNat →
    FaultsWith (step s) s .unknownOpcode (some op) (some (.cell op))

/-! ### Operands -/

/-- R91: what an operand cell stands for as a source, one level deep. -/
def Obligations.ResolveIsOneLevelDeep : Prop :=
  ∀ (s : State) (c : Cell),
    (c.toNat < 32768 → resolve s (classify c) = .ok c) ∧
    (∀ r : RegIx, c.toNat = 32768 + r.val → resolve s (classify c) = .ok (readReg s r)) ∧
    (32776 ≤ c.toNat → resolve s (classify c) = .error { kind := .illegalWord, offending := some (.cell c) })

/-- What a source operand resolves to is a word where the registers hold words (R91), and a word is used as it is by every rule that
relies on one; what a use makes of another value is free (LOG 18). -/
def Obligations.WordsAreUsedAsTheyAre : Prop :=
  (∀ (s : State) (a : Operand) (x : Cell), HoldsWords s → resolve s a = .ok x → x.toNat < 32768) ∧
  ∀ (u : WordUse) (x : Cell), x.toNat < 32768 → usedAs u x = x

/-- R92: what an operand cell stands for as a destination. -/
def Obligations.AsRegDemandsARegister : Prop :=
  ∀ c : Cell,
    (∀ r : RegIx, c.toNat = 32768 + r.val → asReg (classify c) = .ok r) ∧
    (c.toNat < 32768 → asReg (classify c) = .error { kind := .expectedRegister, offending := some (.cell c) }) ∧
    (32776 ≤ c.toNat → asReg (classify c) = .error { kind := .illegalWord, offending := some (.cell c) })

/-- Section 4 of 30_encoding.md: an instruction raises IllegalWord or ExpectedRegister exactly when some operand is not of its
slot's kind. -/
def Obligations.OperandFaultsAreExactlyIllFormed : Prop :=
  ∀ (i : Instr) (s : State), s.run = .running →
    (i.wellFormed = false ↔
      ∃ c, FaultsWith (exec i s) s .illegalWord (some i.opcode) (some (.cell c)) ∨
        FaultsWith (exec i s) s .expectedRegister (some i.opcode) (some (.cell c)))

/-! ### The step -/

/-- A running machine executes the instruction that the cells at pc decode to; the step adds nothing around it. -/
def Obligations.StepRunsTheDecodedInstruction : Prop :=
  ∀ (s : State) (i : Instr) (rest : List Cell),
    s.run = .running → decode (fetchWindow s) = .ok i rest → step s = exec i s

/-- The cells an instruction is decoded from are those of memory at pc, pc + 1, pc + 2 and pc + 3, as far as they exist. -/
def Obligations.FetchWindowIsMemoryAtPc : Prop :=
  ∀ (s : State) (k : Nat), k < 4 →
    (fetchWindow s)[k]? =
      if s.pc.toNat + k < memBound s.env then some (memRead s.mem (s.pc.toNat + k)) else none

/-- R93, by the spec's decision D6: a fetch at 32768 or more, of the opcode cell or of an operand cell, faults with that
address; with BEYOND_IMAGE = fault the bound is the image's length. -/
def Obligations.FetchPastTheLastCellFaults : Prop :=
  (∀ e : Env, e.beyondImage = .zero → memBound e = 32768) ∧
  (∀ (e : Env) (n : Nat), e.beyondImage = .fault n → n ≤ 32768 → memBound e = n) ∧
  (∀ s : State, s.run = .running → memBound s.env ≤ s.pc.toNat →
    FaultsWith (step s) s .addressOutOfRange none (some (.address s.pc.toNat))) ∧
  (∀ op : Cell, op.toNat < 22 → CutOffFaults op (operandCount op.toNat))

/-- 10_state.md section 6: HALTED and FAULTED are terminal, and only a running machine steps. -/
def Obligations.StoppedMachineTakesNoStep : Prop :=
  (∀ s : State, s.run = .halted → step s = .fault .runHalted) ∧
  (∀ s : State, s.run = .faulted → step s = .fault .runFaulted) ∧
  (∀ s t : State, step s = .next t → s.run = .running)

/-- No instruction is refused: every one answers a next state in every state, and so does every running machine. That a fatal
error is a next state is the model's choice (LOG 15), and so is that `in` with an empty buffer and a silent host, which the spec
calls blocked with no step taken (R9, R162), answers the unchanged state (LOG 6). -/
def Obligations.RunningMachineAlwaysSteps : Prop :=
  (∀ (i : Instr) (s : State), ∃ t, exec i s = .next t) ∧
  ∀ s : State, s.run = .running → ∃ t, step s = .next t

/-- R171, whose precision is the spec's decision D11: a fatal error changes RUN and FAULT and nothing else, records the pc of
the faulting instruction and its opcode cell if it could be fetched, is followed by no step, and ends the process with a
non-zero status. -/
def Obligations.FatalErrorsArePrecise : Prop :=
  ∀ s t : State, step s = .next t → t.run = .faulted →
    ∃ f : FaultRecord,
      t = { s with run := .faulted, fault := some f } ∧
      f.pc = s.pc ∧
      f.opcode = (if s.pc.toNat < memBound s.env then some (memRead s.mem s.pc.toNat) else none) ∧
      step t = .fault .runFaulted ∧
      ∃ n, exitStatus t = some n ∧ n ≠ 0

/-- R180, which the spec derives from R172 to R179: which instruction can raise what: an instruction that was fetched, what the
matrix lists for it (AddressOutOfRange of rmem and wmem only with BEYOND_IMAGE = fault, or at a free address, LOG 18); a fetch,
AddressOutOfRange or UnknownOpcode. -/
def Obligations.FaultMatrixIsClosed : Prop :=
  ∀ (s t : State) (f : FaultRecord), step s = .next t → t.run = .faulted → t.fault = some f →
    (∀ i rest, decode (fetchWindow s) = .ok i rest → f.kind ∈ mayRaise i) ∧
    (∀ i rest, decode (fetchWindow s) = .ok i rest → s.env.beyondImage = .zero → HoldsWords s →
      f.kind = .addressOutOfRange → ∃ a, i = .call a) ∧
    ((∀ i rest, decode (fetchWindow s) ≠ .ok i rest) → f.kind = .addressOutOfRange ∨ f.kind = .unknownOpcode)

/-! ### halt, noop -/

/-- R110; that pc stays at the `halt` cell is the spec's decision D15. -/
def Obligations.HaltEndsTheRunCleanly : Prop :=
  (∀ rest, decode (0 :: rest) = .ok .halt rest) ∧
  (∀ s, exec .halt s = .next { s with run := .halted }) ∧
  ∀ s, FindsOpcode s 0 →
    ∃ t, step s = .next t ∧ t = { s with run := .halted } ∧ EndedWell t ∧ exitStatus t = some 0 ∧
      step t = .fault .runHalted

/-- R111, with its corner at the last address. -/
def Obligations.NoopOnlyAdvances : Prop :=
  (∀ rest, decode (21 :: rest) = .ok .noop rest) ∧
  (∀ s, ∃ t, exec .noop s = .next t ∧ PcAdvances s t 1 ∧ SameButPc s t) ∧
  ∀ s, FindsOpcode s 21 → s.pc.toNat = 32767 →
    ∃ t, step s = .next t ∧ t.pc.toNat = 32768 ∧
      FaultsWith (step t) t .addressOutOfRange none (some (.address 32768))

/-! ### set, push, pop -/

/-- R115, for words. That a source of 32768 or more (RMEM_HIGH = raw16) is used as it stands is the model's choice,
LOG 10. -/
def Obligations.SetCopiesTheSource : Prop :=
  ShapeRV .set 1 ∧
  ∀ s d b x, resolve s b = .ok x →
    ∃ t, exec (.set (.register d) b) s = .next t ∧ WritesReg s t d x.toNat 3

/-- R116, for words. That push runs on a source of 32768 or more (RMEM_HIGH = raw16) and adds one entry, of which nothing is
known, is the model's choice, LOG 18. -/
def Obligations.PushAddsATopEntry : Prop :=
  ShapeV .push 2 ∧
  ∀ s a x, resolve s a = .ok x →
    ∃ t e, exec (.push a) s = .next t ∧ t.stack = e :: s.stack ∧ (x.toNat < 32768 → e = x) ∧ PcAdvances s t 2 ∧
      SameButStackPc s t

/-- R117: by the spec's decision D10 the operand is checked before the stack (the faults of ShapeR hold on an empty stack too).
That an entry of 32768 or more (RMEM_HIGH = raw16) reaches the register as it is, is the model's choice, LOG 10. -/
def Obligations.PopTakesTheTopEntry : Prop :=
  ShapeR .pop 3 ∧
  (∀ s d v rest, s.stack = v :: rest →
    ∃ t, exec (.pop (.register d)) s = .next t ∧ t.stack = rest ∧ readReg t d = v ∧ PcAdvances s t 2 ∧
      SameRegsBut d s t ∧ SameMem s t ∧ SameStreams s t ∧ SameRun s t) ∧
  (∀ s d, s.stack = [] → FaultsWith (exec (.pop (.register d)) s) s .stackUnderflow (some 3) none)

/-! ### eq, gt -/

/-- R120, for words. That a source of 32768 or more (RMEM_HIGH = raw16) is used as it stands is the model's choice,
LOG 10. -/
def Obligations.EqWritesEquality : Prop :=
  ShapeRVV .eq 4 ∧
  ∀ s d b c x y, resolve s b = .ok x → resolve s c = .ok y →
    ∃ t, exec (.eq (.register d) b c) s = .next t ∧ WritesReg s t d (if x.toNat = y.toNat then 1 else 0) 4

/-- R121: strictly greater, unsigned, the first source against the second, for words. That a source of 32768 or more (RMEM_HIGH =
raw16) is used as it stands is the model's choice, LOG 10. -/
def Obligations.GtWritesStrictOrder : Prop :=
  ShapeRVV .gt 5 ∧
  ∀ s d b c x y, resolve s b = .ok x → resolve s c = .ok y →
    ∃ t, exec (.gt (.register d) b c) s = .next t ∧ WritesReg s t d (if x.toNat > y.toNat then 1 else 0) 4

/-! ### jmp, jt, jf, call, ret -/

/-- R126, for words. That jmp runs on a target of 32768 or more (RMEM_HIGH = raw16) and changes pc only, to a value of which
nothing is known, is the model's choice, LOG 18. -/
def Obligations.JmpGoesToTheTarget : Prop :=
  ShapeV .jmp 6 ∧
  ∀ s a x, resolve s a = .ok x →
    ∃ t, exec (.jmp a) s = .next t ∧ (x.toNat < 32768 → t.pc.toNat = x.toNat) ∧ SameButPc s t

/-- R127, for words: the target cell is checked even when the jump is not taken (ShapeVV; R96). That a condition of 32768 or more
(RMEM_HIGH = raw16) jumps is the model's choice, LOG 10; where a target of 32768 or more leads is free, LOG 18. -/
def Obligations.JtJumpsOnNonZero : Prop :=
  ShapeVV .jt 7 ∧
  ∀ s a b x y, resolve s a = .ok x → resolve s b = .ok y →
    ∃ t, exec (.jt a b) s = .next t ∧ SameButPc s t ∧
      (x.toNat ≠ 0 → y.toNat < 32768 → t.pc.toNat = y.toNat) ∧ (x.toNat = 0 → PcAdvances s t 3)

/-- R128, for words. That a condition of 32768 or more (RMEM_HIGH = raw16) falls through is the model's choice, LOG 10; where a
target of 32768 or more leads is free, LOG 18. -/
def Obligations.JfJumpsOnZero : Prop :=
  ShapeVV .jf 8 ∧
  ∀ s a b x y, resolve s a = .ok x → resolve s b = .ok y →
    ∃ t, exec (.jf a b) s = .next t ∧ SameButPc s t ∧
      (x.toNat = 0 → y.toNat < 32768 → t.pc.toNat = y.toNat) ∧ (x.toNat ≠ 0 → PcAdvances s t 3)

/-- R129, with the return address that is no word, a fatal error by the spec's decision D7. -/
def Obligations.CallPushesAndJumps : Prop :=
  ShapeV .call 17 ∧
  (∀ s a x, resolve s a = .ok x → s.pc.toNat + 2 < 32768 →
    ∃ t back, exec (.call a) s = .next t ∧ t.stack = back :: s.stack ∧ back.toNat = s.pc.toNat + 2 ∧
      (x.toNat < 32768 → t.pc.toNat = x.toNat) ∧ SameButStackPc s t) ∧
  (∀ s a x, resolve s a = .ok x → 32768 ≤ s.pc.toNat + 2 →
    FaultsWith (exec (.call a) s) s .addressOutOfRange (some 17) (some (.address (s.pc.toNat + 2))))

/-- R130, for both values of RET_EMPTY, of which the spec's decision D12 takes fault (LOG 9). -/
def Obligations.RetPopsIntoPc : Prop :=
  (∀ rest, decode (18 :: rest) = .ok .ret rest) ∧
  (∀ s v rest, s.stack = v :: rest →
    ∃ t, exec .ret s = .next t ∧ t.stack = rest ∧ (v.toNat < 32768 → t.pc.toNat = v.toNat) ∧ SameButStackPc s t) ∧
  (∀ s, s.stack = [] → s.env.retEmpty = .fault → FaultsWith (exec .ret s) s .stackUnderflow (some 18) none) ∧
  (∀ s, s.stack = [] → s.env.retEmpty = .halt → exec .ret s = .next { s with run := .halted })

/-! ### add, mult, mod, and, or, not -/

/-- R135, for words. That a source of 32768 or more (RMEM_HIGH = raw16) is used as it stands is the model's choice,
LOG 10. -/
def Obligations.AddIsModulo32768 : Prop :=
  ShapeRVV .add 9 ∧
  ∀ s d b c x y, resolve s b = .ok x → resolve s c = .ok y →
    ∃ t, exec (.add (.register d) b c) s = .next t ∧ WritesReg s t d ((x.toNat + y.toNat) % 32768) 4

/-- R136: the exact product, then reduced, for words. That a source of 32768 or more (RMEM_HIGH =
raw16) is used as it stands is the model's choice, LOG 10. -/
def Obligations.MultIsExactThenModulo32768 : Prop :=
  ShapeRVV .mult 10 ∧
  ∀ s d b c x y, resolve s b = .ok x → resolve s c = .ok y →
    ∃ t, exec (.mult (.register d) b c) s = .next t ∧ WritesReg s t d ((x.toNat * y.toNat) % 32768) 4

/-- R137: the remainder is the unique r below the divisor; the zero that faults is the divisor, the third operand cell, which the
record holds. This is R137 for words; that a dividend or divisor of 32768 or more (RMEM_HIGH = raw16) is used as it stands, and a
remainder below 32768 written as it is, is the model's choice, LOG 10; what is written for a greater remainder is free, LOG 18. -/
def Obligations.ModIsTheRemainder : Prop :=
  ShapeRVV .mod 11 ∧
  (∀ s d b c x y, resolve s b = .ok x → resolve s c = .ok y → y.toNat ≠ 0 →
    ∃ t q r v, exec (.mod (.register d) b c) s = .next t ∧ WritesReg s t d v 4 ∧
      r < y.toNat ∧ x.toNat = q * y.toNat + r ∧ (r < 32768 → v = r)) ∧
  (∀ s d b c x y, resolve s b = .ok x → resolve s c = .ok y → y.toNat = 0 →
    FaultsWith (exec (.mod (.register d) b c) s) s .divisionByZero (some 11) (some (.cell (cellOf c))))

/-- R138, for words. That a source of 32768 or more (RMEM_HIGH = raw16) is used as it stands is the model's choice,
LOG 10. -/
def Obligations.AndIsBitwise : Prop :=
  ShapeRVV .and 12 ∧
  ∀ s d b c x y, resolve s b = .ok x → resolve s c = .ok y →
    ∃ (t : State) (v : Cell), exec (.and (.register d) b c) s = .next t ∧ WritesReg s t d v.toNat 4 ∧ v.toNat < 32768 ∧
      ∀ i < 15, (v.getLsbD i = true ↔ x.getLsbD i = true ∧ y.getLsbD i = true)

/-- R139, for words. That a source of 32768 or more (RMEM_HIGH = raw16) is used as it stands is the model's choice,
LOG 10. -/
def Obligations.OrIsBitwise : Prop :=
  ShapeRVV .or 13 ∧
  ∀ s d b c x y, resolve s b = .ok x → resolve s c = .ok y →
    ∃ (t : State) (v : Cell), exec (.or (.register d) b c) s = .next t ∧ WritesReg s t d v.toNat 4 ∧ v.toNat < 32768 ∧
      ∀ i < 15, (v.getLsbD i = true ↔ x.getLsbD i = true ∨ y.getLsbD i = true)

/-- R140, for words. That a source of 32768 or more (RMEM_HIGH = raw16) is used as it stands is the model's choice,
LOG 10. -/
def Obligations.NotIsTheComplementOf15Bits : Prop :=
  ShapeRV .not 14 ∧
  ∀ s d b x, resolve s b = .ok x →
    ∃ (t : State) (v : Cell), exec (.not (.register d) b) s = .next t ∧ WritesReg s t d v.toNat 3 ∧
      v.toNat = 32767 - x.toNat % 32768 ∧ ∀ i < 15, v.getLsbD i = !x.getLsbD i

/-! ### rmem, wmem -/

/-- R145: the data address is the resolved value; the register receives the raw cell there, if it is below 32768 or RMEM_HIGH =
raw16, the spec's alternative; else, by the spec's decision D13, RawWordOutOfRange (LOG 10). AddressOutOfRange for a word only
past the image with BEYOND_IMAGE = fault, by its decision D3 (LOG 8); that a source of 32768 or more gives a free address, which
is AddressOutOfRange where no cell exists, with BEYOND_IMAGE = zero too, is the model's choice, LOG 18. -/
def Obligations.RmemLoadsTheRawCell : Prop :=
  ShapeRV .rmem 15 ∧
  (∀ s b x, resolve s b = .ok x → x.toNat < 32768 → DataAddress s b x) ∧
  (∀ s d b ea, DataAddress s b ea → ea.toNat < memBound s.env →
    (memRead s.mem ea.toNat).toNat < 32768 ∨ s.env.rmemHigh = .raw16 →
    ∃ t, exec (.rmem (.register d) b) s = .next t ∧ WritesReg s t d (memRead s.mem ea.toNat).toNat 3) ∧
  (∀ s d b ea, DataAddress s b ea → ea.toNat < memBound s.env →
    32768 ≤ (memRead s.mem ea.toNat).toNat → s.env.rmemHigh = .fault →
    FaultsWith (exec (.rmem (.register d) b) s) s .rawWordOutOfRange (some 15)
      (some (.cell (memRead s.mem ea.toNat)))) ∧
  (∀ s d b ea, DataAddress s b ea → memBound s.env ≤ ea.toNat →
    FaultsWith (exec (.rmem (.register d) b) s) s .addressOutOfRange (some 15) (some (.address ea.toNat)))

/-- R146: the whole cell at the resolved address holds the resolved word, and every other cell reads as before. AddressOutOfRange
for words only past the image with BEYOND_IMAGE = fault, which is R45, by the spec's decision D3 (LOG 8). That an operand of 32768
or more (RMEM_HIGH = raw16) gives a free address, which is AddressOutOfRange where no cell exists, with BEYOND_IMAGE = zero too,
or a free content, is the model's choice, LOG 18. -/
def Obligations.WmemStoresTheWord : Prop :=
  ShapeVV .wmem 16 ∧
  (∀ s a x, resolve s a = .ok x → x.toNat < 32768 → DataAddress s a x) ∧
  (∀ s a b ea v, DataAddress s a ea → resolve s b = .ok v → ea.toNat < memBound s.env →
    ∃ t, exec (.wmem a b) s = .next t ∧ (v.toNat < 32768 → (memRead t.mem ea.toNat).toNat = v.toNat) ∧
      SameMemBut ea.toNat s t ∧ PcAdvances s t 3 ∧ SameRegs s t ∧ t.stack = s.stack ∧ SameStreams s t ∧ SameRun s t) ∧
  (∀ s a b ea v, DataAddress s a ea → resolve s b = .ok v → memBound s.env ≤ ea.toNat →
    FaultsWith (exec (.wmem a b) s) s .addressOutOfRange (some 16) (some (.address ea.toNat)))

/-! ### out, in -/

/-- 47_out_in.md, `out`: one code joins the output when the host accepts it; on a failed write the fatal error. How the
host's verdicts stand in the state is the model's (LOG 5). -/
def Obligations.OutEmitsOneCode : Prop :=
  ShapeV .out 19 ∧
  (∀ s a x, resolve s a = .ok x → s.env.writesLeft ≠ some 0 →
    ∃ t c, exec (.out a) s = .next t ∧ t.output = s.output ++ [c] ∧ (x.toNat < 32768 → c = x) ∧ PcAdvances s t 2 ∧
      SameRegs s t ∧ SameMem s t ∧ t.stack = s.stack ∧ t.inbuf = s.inbuf ∧ SameRun s t ∧
      t.env = { s.env with writesLeft := s.env.writesLeft.map (· - 1) }) ∧
  (∀ s a x, resolve s a = .ok x → s.env.writesLeft = some 0 →
    FaultsWith (exec (.out a) s) s (.ioError .outputWriteFailure) (some 19) none) ∧
  (∀ v : Cell, v.toNat < 128 → hostBytes v = [BitVec.ofNat 8 v.toNat])

/-- 47_out_in.md, `in`: the front of the buffer, without the host when it is not empty; a refill by one line when it is;
end-of-file is the fatal error; while the host is silent nothing changes and the same step is tried again, as a next state (the
model's choice, LOG 6). The operand is checked before any input is asked for, by the spec's decision D19. How the host's answers
stand in the state is the model's (LOG 4, LOG 19); that an answer of no characters is end-of-file is read from D18, and that an
end-of-file answer is not used up by the fatal error is the model's choice (LOG 7). -/
def Obligations.InDeliversOneCode : Prop :=
  ShapeR .inp 20 ∧
  (∀ s d c rest, s.inbuf = c :: rest →
    ∃ t, exec (.inp (.register d)) s = .next t ∧ (readReg t d).toNat = c.toNat ∧ t.inbuf = rest ∧ t.env = s.env ∧
      PcAdvances s t 2 ∧ SameRegsBut d s t ∧ SameMem s t ∧ t.stack = s.stack ∧ t.output = s.output ∧ SameRun s t) ∧
  AnswersInOrder ∧
  (∀ s d c rest e, s.inbuf = [] → nextAnswer s.env = some (.line (c :: rest), e) →
    ∃ t, exec (.inp (.register d)) s = .next t ∧ (readReg t d).toNat = c.toNat ∧ t.inbuf = rest ∧
      t.env = e ∧
      PcAdvances s t 2 ∧ SameRegsBut d s t ∧ SameMem s t ∧ t.stack = s.stack ∧ t.output = s.output ∧ SameRun s t) ∧
  (∀ s d e, s.inbuf = [] → nextAnswer s.env = some (.endOfFile, e) ∨ nextAnswer s.env = some (.line [], e) →
    FaultsWith (exec (.inp (.register d)) s) s (.ioError .inputEof) (some 20) none) ∧
  (∀ s d, s.inbuf = [] → nextAnswer s.env = none → exec (.inp (.register d)) s = .next s)

/-! ### Rules over all instructions -/

/-- 10_state.md section 2: a register that is not the destination of the instruction is not written. -/
def Obligations.OnlyTheDestinationIsWritten : Prop :=
  ∀ (i : Instr) (s t : State) (r : RegIx),
    exec i s = .next t → destination i ≠ some (.register r) → readReg t r = readReg s r

/-- R50, for words: `rmem` reads one cell, at the address its source resolves to; `wmem` writes one cell, at the address its first
operand resolves to, and reads none; no other instruction reads or writes memory (its own cells are fetched before). That an
operand of 32768 or more (RMEM_HIGH = raw16) leads to one cell too, at a free address, is the model's choice, LOG 18. -/
def Obligations.OnlyRmemAndWmemReachMemory : Prop :=
  (∀ (s : State) (a : Operand) (x : Cell), resolve s a = .ok x → x.toNat < 32768 → DataAddress s a x) ∧
  (∀ (i : Instr) (s t : State), exec i s = .next t → (∀ a b, i ≠ .wmem a b) → t.mem = s.mem) ∧
  (∀ (i : Instr) (s : State) (m : Memory), (∀ a b, i ≠ .wmem a b) → (∀ a b, i ≠ .rmem a b) →
    exec i { s with mem := m } = mapNext (fun t => { t with mem := m }) (exec i s)) ∧
  (∀ (s : State) (m : Memory) (a b : Operand),
    (∀ ea, DataAddress s b ea → memRead m ea.toNat = memRead s.mem ea.toNat) →
    exec (.rmem a b) { s with mem := m } = mapNext (fun t => { t with mem := m }) (exec (.rmem a b) s)) ∧
  (∀ (s t : State) (a b : Operand) (ea : Cell), exec (.wmem a b) s = .next t → DataAddress s a ea →
    SameMemBut ea.toNat s t) ∧
  (∀ (s : State) (m : Memory) (a b : Operand),
    mapNext (fun t => { t with mem := [] }) (exec (.wmem a b) { s with mem := m }) =
      mapNext (fun t => { t with mem := [] }) (exec (.wmem a b) s))

/-- 10_state.md section 4: push and call push one entry, pop and ret take the top one, no other instruction touches the stack. -/
def Obligations.StackIsLastInFirstOut : Prop :=
  ∀ (i : Instr) (s t : State), exec i s = .next t →
    t.stack = s.stack ∨
    ((∃ a, i = .push a ∨ i = .call a) ∧ ∃ v, t.stack = v :: s.stack) ∨
    (((∃ a, i = .pop a) ∨ i = .ret) ∧ ∃ v, s.stack = v :: t.stack)

/-- R160: NextInput takes the front entry and touches the host only when the buffer is empty, refilling it with one line. -/
def Obligations.NextInputTouchesTheHostOnlyWhenEmpty : Prop :=
  (∀ s c rest, s.inbuf = c :: rest → nextInput s = .code c { s with inbuf := rest }) ∧
  AnswersInOrder ∧
  (∀ s c rest e, s.inbuf = [] → nextAnswer s.env = some (.line (c :: rest), e) →
    nextInput s = .code c { s with inbuf := rest, env := e })

/-- 10_state.md section 5: no instruction but `in` reads or changes the input buffer or the host's answers. -/
def Obligations.OnlyInReachesTheInput : Prop :=
  ∀ (i : Instr) (s : State) (q : List Word) (ans : List HostAnswer) (l : LaterAnswers), (∀ a, i ≠ .inp a) →
    exec i { s with inbuf := q, env := { s.env with answers := ans, later := l } } =
      mapNext (fun t => { t with inbuf := q, env := { t.env with answers := ans, later := l } }) (exec i s)

/-- 50_interfaces.md section 3: the output only grows, by the code of an `out`. -/
def Obligations.OutputOnlyGrowsByOut : Prop :=
  ∀ (i : Instr) (s t : State), exec i s = .next t →
    t.output = s.output ∨ ∃ a v c, i = .out a ∧ resolve s a = .ok v ∧ t.output = s.output ++ [c] ∧ (v.toNat < 32768 → c = v)

/-- Nothing in the machine reads the output it has emitted: two runs that differ only there go the same way. -/
def Obligations.EmittedOutputIsNeverRead : Prop :=
  ∀ (s : State) (o : List Cell),
    step { s with output := o ++ s.output } = mapNext (fun t => { t with output := o ++ t.output }) (step s)

/-- The parameters of the machine never change, and the host's answers are used up in order. All are fields that the model put
into the state, where the spec has parameters of the step: the answers LOG 4 and LOG 19, BEYOND_IMAGE LOG 8, RET_EMPTY LOG 9,
RMEM_HIGH LOG 10. -/
def Obligations.ParametersNeverChange : Prop :=
  ∀ s t : State, step s = .next t →
    t.env.beyondImage = s.env.beyondImage ∧ t.env.retEmpty = s.env.retEmpty ∧ t.env.rmemHigh = s.env.rmemHigh ∧
      (∃ used, s.env.answers = used ++ t.env.answers) ∧
      (t.env.later = s.env.later ∨
        s.env.answers = [] ∧ ∃ n, s.env.later = .free n ∧ t.env.later = .free (n + 1))

/-- R100: a fetched instruction lies wholly in memory, so a fall-through is a plain addition that reaches at most 32768, which
the spec derives from R93 and R95. Every instruction that neither jumps, ends the run nor waits falls through by its own length:
`jt` and `jf` that are not taken among them. -/
def Obligations.FallThroughNeverWraps : Prop :=
  ∀ (s : State) (i : Instr) (rest : List Cell), decode (fetchWindow s) = .ok i rest →
    s.pc.toNat + operandCount i.opcode.toNat < memBound s.env ∧
    ∀ t, exec i s = .next t → t ≠ s → t.run = .running →
      (∀ a, i ≠ .jmp a) → (∀ a, i ≠ .call a) → i ≠ .ret →
      (∀ a b x, i = .jt a b → resolve s a = .ok x → x.toNat = 0) →
      (∀ a b x, i = .jf a b → resolve s a = .ok x → x.toNat ≠ 0) →
      t.pc.toNat = s.pc.toNat + 1 + operandCount i.opcode.toNat ∧ t.pc.toNat ≤ 32768

/-- R55, which the spec derives from R40, R43 and R52: a stored cell is fetched as stored by every later fetch of that address,
the very next one among them, while no other store has changed memory. -/
def Obligations.FetchSeesTheLatestStore : Prop :=
  ∀ (s t u : State) (a b : Operand) (ea v : Cell) (k : Nat),
    DataAddress s a ea → resolve s b = .ok v → ea.toNat < memBound s.env → exec (.wmem a b) s = .next t →
    u.mem = t.mem → u.env.beyondImage = t.env.beyondImage → k < 4 → u.pc.toNat + k = ea.toNat →
    ∃ c, (fetchWindow u)[k]? = some c ∧ memRead t.mem ea.toNat = c ∧ (v.toNat < 32768 → c = v)

/-- The law of 42_set_push_pop.md, for a word: a pop after a push gives the value pushed, the stack as before. -/
def Obligations.PopUndoesPush : Prop :=
  ∀ (s : State) (a : Operand) (d : RegIx) (x : Cell), resolve s a = .ok x → x.toNat < 32768 →
    ∃ t u, exec (.push a) s = .next t ∧ exec (.pop (.register d)) t = .next u ∧ readReg u d = x ∧ u.stack = s.stack

/-- The law of 44_control_flow.md: a ret that finds the stack as the call left it returns to the instruction after the call. Where
the call's target is 32768 or more, that it runs is the model's choice, LOG 18. -/
def Obligations.RetReturnsAfterTheCall : Prop :=
  ∀ (s : State) (a : Operand) (x : Cell), resolve s a = .ok x → s.pc.toNat + 2 < 32768 →
    ∃ t, exec (.call a) s = .next t ∧
      ∀ u : State, u.stack = t.stack →
        ∃ w, exec .ret u = .next w ∧ w.pc.toNat = s.pc.toNat + 2 ∧ w.stack = s.stack

/-! ### Invariants -/

/-- The invariant holds in every next state of a state it holds in: memory stays canonical, FAULT is none exactly while RUN is
not FAULTED, and with RMEM_HIGH = fault every register, stack entry and output code stays a word, and pc within 0 to 32768. -/
def Obligations.StepKeepsTheInvariant : Prop := ∀ s t : State, Inv s → step s = .next t → Inv t

/-- The invariant holds at reset. -/
def Obligations.ResetMeetsTheInvariant : Prop := Inv State.reset

/-- The invariant holds after a boot with any image, any REG_INIT and any parameters. -/
def Obligations.BootMeetsTheInvariant : Prop :=
  ∀ (regInit : Vector Word 8) (env : Env) (image : List Byte) (t : State), boot regInit env image = .next t → Inv t

/-- 20_memory.md section 1: no step makes a cell hold 32768 or more: one that does holds what it held before. That the registers
hold words is the invariant of StepKeepsTheInvariant. -/
def Obligations.HighCellsComeFromTheLoader : Prop :=
  ∀ (s t : State) (a : Nat), HoldsWords s → step s = .next t → 32768 ≤ (memRead t.mem a).toNat →
    memRead t.mem a = memRead s.mem a

/-! ### Boot, image, end of run -/

/-- R190, R155: the state after reset, item by item, for every image, REG_INIT and parameters. That the parameters of the step stand
in `env` is the model's (LOG 4, 5, 8, 9, 10): boot keeps them, and with BEYOND_IMAGE = fault the bound of existing cells becomes the
image's length in words (R45, R93). -/
def Obligations.BootGivesTheResetState : Prop :=
  ∀ (regInit : Vector Word 8) (env : Env) (image : List Byte), image.length ≤ 65537 →
    ∃ t, boot regInit env image = .next t ∧
      (∀ i, 2 * i + 1 < image.length →
        (memRead t.mem i).toNat = (image.getD (2 * i) 0).toNat + 256 * (image.getD (2 * i + 1) 0).toNat) ∧
      (∀ i, image.length ≤ 2 * i + 1 → memRead t.mem i = 0) ∧
      (∀ r : RegIx, (readReg t r).toNat = regInit[r.val].toNat) ∧
      t.stack = [] ∧ t.pc = 0 ∧ t.inbuf = [] ∧ t.run = .running ∧ t.fault = none ∧ t.output = [] ∧
      t.env = { env with beyondImage := env.beyondImage.loaded (image.length / 2) } ∧
      (env.beyondImage = .zero → memBound t.env = 32768) ∧
      (∀ n, env.beyondImage = .fault n → memBound t.env = image.length / 2)

/-- R156: an odd last byte is dropped, an empty image halts at its first step, an image of more than 32768 words is
refused, by the spec's decision D4. -/
def Obligations.ImageEdgesAreAsStated : Prop :=
  (∀ (regInit : Vector Word 8) (env : Env) (image : List Byte) (b : Byte), image.length % 2 = 0 →
    boot regInit env (image ++ [b]) = boot regInit env image) ∧
  (∀ (regInit : Vector Word 8) (env : Env), env.beyondImage = .zero →
    ∃ t, boot regInit env [] = .next t ∧ (∀ a, memRead t.mem a = 0) ∧ step t = .next { t with run := .halted }) ∧
  (∀ (regInit : Vector Word 8) (env : Env) (image : List Byte), 65538 ≤ image.length →
    boot regInit env image = .refused .imageTooLong)

/-- The model's reset state is the boot of an empty image with REG_INIT 0, a silent host that accepts every write, BEYOND_IMAGE
zero, RET_EMPTY fault and RMEM_HIGH fault: the model's choice (LOG 2, 3, 4, 5), the three parameters as the hardware takes them. -/
def Obligations.ResetIsTheBootOfNothing : Prop :=
  boot (Vector.replicate 8 0) Env.initial [] = .next State.reset

/-- R164: 0 on HALTED, some non-zero value on FAULTED (EXIT_FAULT, a free value, LOG 11). -/
def Obligations.ExitStatusFollowsRun : Prop :=
  (∀ s : State, s.run = .halted → exitStatus s = some 0) ∧
  (∀ s : State, s.run = .faulted → ∃ n, exitStatus s = some n ∧ n ≠ 0) ∧
  (∀ s : State, s.run = .running → exitStatus s = none)

/-- The numeric codes of the fatal errors (92_eei_decisions.md D14). -/
def Obligations.FatalErrorCodes : Prop :=
  FaultKind.illegalWord.code = 1 ∧ FaultKind.expectedRegister.code = 2 ∧ FaultKind.unknownOpcode.code = 3 ∧
  FaultKind.stackUnderflow.code = 4 ∧ FaultKind.divisionByZero.code = 5 ∧ (∀ c, (FaultKind.ioError c).code = 6) ∧
  FaultKind.addressOutOfRange.code = 7 ∧ FaultKind.rawWordOutOfRange.code = 8
end

