-- ==== Sys2Proof/Laws/Arith.lean ====
section
/-! SUPPORT. The results of the arithmetic as numbers; each is a word (45_alu.md R141), the remainder when the dividend is. What the
comparisons write, and when a jump condition holds. -/

namespace Sys2Proof.Machine

theorem low15_toNat (x : Cell) : (low15 x).toNat = x.toNat % 32768 := by
  have : (low15 x).toNat = x.toNat &&& (2 ^ 15 - 1) := BitVec.toNat_and x 0x7fff
  rw [this, Nat.and_two_pow_sub_one_eq_mod]

theorem low15_getLsbD (x : Cell) (i : Nat) : (low15 x).getLsbD i = (decide (i < 15) && x.getLsbD i) := by
  rw [← BitVec.testBit_toNat, low15_toNat, show 32768 = 2 ^ 15 from rfl, Nat.testBit_mod_two_pow, BitVec.testBit_toNat]

theorem addResult_toNat (x y : Cell) : (addResult x y).toNat = (x.toNat + y.toNat) % 32768 := by
  simp only [addResult, BitVec.toNat_ofNat]; omega

theorem multResult_toNat (x y : Cell) : (multResult x y).toNat = (x.toNat * y.toNat) % 32768 := by
  simp only [multResult, BitVec.toNat_ofNat]
  have := Nat.mod_lt (x.toNat * y.toNat) (show 0 < 32768 by decide)
  omega

theorem modResult_toNat (x y : Cell) : (modResult x y).toNat = x.toNat % y.toNat := by
  have := Nat.mod_le x.toNat y.toNat
  have := x.isLt
  simp only [modResult, BitVec.toNat_ofNat]
  exact Nat.mod_eq_of_lt (by omega)

theorem addResult_lt (x y : Cell) : (addResult x y).toNat < 32768 := by rw [addResult_toNat]; omega
theorem multResult_lt (x y : Cell) : (multResult x y).toNat < 32768 := by
  rw [multResult_toNat]; exact Nat.mod_lt _ (by decide)
theorem modResult_lt (x : Cell) {y : Cell} (h : x.toNat < 32768) : (modResult x y).toNat < 32768 := by
  rw [modResult_toNat]; exact Nat.lt_of_le_of_lt (Nat.mod_le _ _) h
theorem andResult_lt (x y : Cell) : (andResult x y).toNat < 32768 := by rw [andResult, low15_toNat]; omega
theorem orResult_lt (x y : Cell) : (orResult x y).toNat < 32768 := by rw [orResult, low15_toNat]; omega
theorem notResult_lt (x : Cell) : (notResult x).toNat < 32768 := by rw [notResult, low15_toNat]; omega

theorem truthCell_lt (b : Bool) : (truthCell b).toNat < 32768 := by cases b <;> decide

theorem truthy_iff {x : Cell} : truthy x = true ↔ x.toNat ≠ 0 := decide_eq_true_iff

end Sys2Proof.Machine
end

