-- ==== Sys2Proof/Laws/Decode.lean ====
section
/-! SUPPORT. The codec and the cells of an instruction: a cell and its verdict determine each other; what the operand readers
of the decoder can answer; what the fetch window holds. -/

namespace Sys2Proof

theorem classify_literal (c : Cell) (h : c.toNat < 32768) : classify c = .literal (BitVec.ofNat 15 c.toNat) := by
  simp [classify, h]

theorem classify_register (c : Cell) (h : 32768 ≤ c.toNat) (h' : c.toNat < 32776) :
    classify c = .register ⟨c.toNat - 32768, by omega⟩ := by
  simp [classify, show ¬ c.toNat < 32768 by omega, h']

theorem classify_invalid (c : Cell) (h : 32776 ≤ c.toNat) : classify c = .invalid c := by
  simp [classify, show ¬ c.toNat < 32768 by omega, show ¬ c.toNat < 32776 by omega]

/-- A verdict's cell has that verdict. -/
theorem classify_cellOf (o : Operand) (h : o.canonical = true) : classify (cellOf o) = o := by
  cases o with
  | literal v =>
    have hv : v.toNat < 32768 := v.isLt
    have hc : (cellOf (.literal v)).toNat = v.toNat := by simp [cellOf, cellOfWord]; omega
    rw [classify_literal _ (by omega), hc]
    simp
  | register r =>
    have hc : (cellOf (.register r)).toNat = 32768 + r.val := by simp [cellOf]; omega
    rw [classify_register _ (by omega) (by omega)]
    simp [hc]
  | invalid c =>
    simp only [Operand.canonical, decide_eq_true_eq] at h
    exact classify_invalid c h

/-- A cell's verdict assembles to that cell. -/
theorem cellOf_classify (c : Cell) : cellOf (classify c) = c := by
  have hc : c.toNat < 65536 := c.isLt
  by_cases h : c.toNat < 32768
  · rw [classify_literal c h]
    apply BitVec.eq_of_toNat_eq
    simp [cellOf, cellOfWord]; omega
  · by_cases h' : c.toNat < 32776
    · rw [classify_register c (by omega) h']
      apply BitVec.eq_of_toNat_eq
      simp [cellOf]; omega
    · rw [classify_invalid c (by omega), cellOf]

/-- Every cell's verdict is canonical. -/
theorem classify_canonical (c : Cell) : (classify c).canonical = true := by
  unfold classify
  split
  · rfl
  · split
    · rfl
    · next h => simp [Operand.canonical]; omega

/-- An operand of either kind is canonical. -/
theorem canonical_of_isVal {o : Operand} (h : o.isVal = true) : o.canonical = true := by
  cases o <;> simp_all [Operand.isVal, Operand.canonical]

theorem isVal_of_isReg {o : Operand} (h : o.isReg = true) : o.isVal = true := by
  cases o <;> simp_all [Operand.isVal, Operand.isReg]

theorem take1_ok {mk : Operand → Instr} {ws r : List Cell} {i : Instr} (h : take1 mk ws = .ok i r) :
    ∃ a, ws = a :: r ∧ i = mk (classify a) := by
  rcases ws with _ | ⟨a, ws⟩
  · cases h
  · simp only [take1, Decoded.ok.injEq] at h
    exact ⟨a, by rw [h.2], h.1.symm⟩

theorem take2_ok {mk : Operand → Operand → Instr} {ws r : List Cell} {i : Instr} (h : take2 mk ws = .ok i r) :
    ∃ a b, ws = a :: b :: r ∧ i = mk (classify a) (classify b) := by
  rcases ws with _ | ⟨a, _ | ⟨b, ws⟩⟩
  · cases h
  · cases h
  · simp only [take2, Decoded.ok.injEq] at h
    exact ⟨a, b, by rw [h.2], h.1.symm⟩

theorem take3_ok {mk : Operand → Operand → Operand → Instr} {ws r : List Cell} {i : Instr} (h : take3 mk ws = .ok i r) :
    ∃ a b c, ws = a :: b :: c :: r ∧ i = mk (classify a) (classify b) (classify c) := by
  rcases ws with _ | ⟨a, _ | ⟨b, _ | ⟨c, ws⟩⟩⟩
  · cases h
  · cases h
  · cases h
  · simp only [take3, Decoded.ok.injEq] at h
    exact ⟨a, b, c, by rw [h.2], h.1.symm⟩

@[simp] theorem decode_cons (op : Cell) (ws : List Cell) : decode (op :: ws) = decodeOp op ws := rfl

@[simp] theorem decode_nil : decode [] = .truncated 0 := rfl

/-- What a cut-off instruction answers: the offset of the first cell that is not there. -/
theorem take1_nil (mk : Operand → Instr) : take1 mk [] = .truncated 1 := rfl

theorem take2_short (mk : Operand → Operand → Instr) (ws : List Cell) (h : ws.length < 2) :
    take2 mk ws = .truncated (ws.length + 1) := by
  rcases ws with _ | ⟨a, _ | ⟨b, ws⟩⟩ <;> first | rfl | (simp at h)

theorem take3_short (mk : Operand → Operand → Operand → Instr) (ws : List Cell) (h : ws.length < 3) :
    take3 mk ws = .truncated (ws.length + 1) := by
  rcases ws with _ | ⟨a, _ | ⟨b, _ | ⟨c, ws⟩⟩⟩ <;> first | rfl | (simp at h; omega)

namespace Machine

/-- Fetching reaches as far as cells exist. -/
theorem fetchCells_length (s : State) (n a : Nat) : (fetchCells s n a).length = min n (memBound s.env - a) := by
  induction n generalizing a with
  | zero => simp [fetchCells]
  | succ n ih =>
    unfold fetchCells
    split
    · simp [ih]; omega
    · simp; omega

/-- Every fetched cell is the memory cell at its address. -/
theorem fetchCells_getElem? (s : State) (n a k : Nat) (hk : k < n) (h : a + k < memBound s.env) :
    (fetchCells s n a)[k]? = some (memRead s.mem (a + k)) := by
  induction n generalizing a k with
  | zero => omega
  | succ n ih =>
    unfold fetchCells
    rw [if_pos (by omega)]
    cases k with
    | zero => simp
    | succ k =>
      rw [List.getElem?_cons_succ, ih (a + 1) k (by omega) (by omega)]
      congr 2; omega

/-- Where the pc names a cell, the window starts with that cell and goes on after it. -/
theorem fetchWindow_cons (s : State) (h : s.pc.toNat < memBound s.env) :
    fetchWindow s = memRead s.mem s.pc.toNat :: fetchCells s 3 (s.pc.toNat + 1) := by
  simp [fetchWindow, fetchCells, h]

theorem fetchWindow_nil (s : State) (h : memBound s.env ≤ s.pc.toNat) : fetchWindow s = [] := by
  simp [fetchWindow, fetchCells, show ¬ s.pc.toNat < memBound s.env by omega]

/-- There are never more than 32768 cells. -/
theorem memBound_le (e : Env) : memBound e ≤ 32768 := by
  unfold memBound Config.memCells
  split <;> omega

end Machine
end Sys2Proof
end

