-- ==== Sys2Proof/Laws/Operands.lean ====
section
/-! SUPPORT. What reading operands can answer, for each kind and format: when it answers values, which ones; when it raises,
which errors. -/

namespace Sys2Proof.Machine

@[simp] theorem asReg_register (r : RegIx) : asReg (.register r) = .ok r := rfl
@[simp] theorem asReg_literal (v : Word) : asReg (.literal v) = .error (expectedRegister (cellOfWord v)) := rfl
@[simp] theorem asReg_invalid (c : Cell) : asReg (.invalid c) = .error (illegalWord c) := rfl
@[simp] theorem resolve_literal (s : State) (v : Word) : resolve s (.literal v) = .ok (cellOfWord v) := rfl
@[simp] theorem resolve_register (s : State) (r : RegIx) : resolve s (.register r) = .ok (readReg s r) := rfl
@[simp] theorem resolve_invalid (s : State) (c : Cell) : resolve s (.invalid c) = .error (illegalWord c) := rfl

theorem asReg_ok {a : Operand} {d : RegIx} : asReg a = .ok d ↔ a = .register d := by
  cases a <;> simp

theorem asReg_error {a : Operand} {r : Raised} (h : asReg a = .error r) :
    r.kind = .illegalWord ∨ r.kind = .expectedRegister := by
  cases a <;> simp at h <;> subst h <;> simp [illegalWord, expectedRegister]

theorem resolve_error {s : State} {a : Operand} {r : Raised} (h : resolve s a = .error r) : r.kind = .illegalWord := by
  cases a <;> simp at h
  subst h; rfl

theorem cellOfWord_toNat (v : Word) : (cellOfWord v).toNat = v.toNat := by
  have := v.isLt
  simp [cellOfWord]; omega

/-- What a source operand resolves to is a word where the registers hold words. -/
theorem resolve_lt {s : State} {a : Operand} {x : Cell} (hw : HoldsWords s) (h : resolve s a = .ok x) : x.toNat < 32768 := by
  cases a with
  | literal v => cases h; rw [cellOfWord_toNat]; exact v.isLt
  | register r => cases h; exact hw.1 r
  | invalid c => cases h

/-- A word is used as it is. -/
theorem usedAs_word (u : WordUse) {v : Cell} (h : v.toNat < 32768) : usedAs u v = v := if_pos h

theorem usedAs_lt (u : WordUse) {v : Cell} (h : v.toNat < 32768) : (usedAs u v).toNat < 32768 := by
  rwa [usedAs_word u h]

/-- A legal source operand resolves in every state. -/
theorem resolve_isVal (s : State) {a : Operand} (h : a.isVal = true) : ∃ x, resolve s a = .ok x := by
  cases a <;> simp_all [Operand.isVal]

theorem readRV_ok {s : State} {a b : Operand} {d : RegIx} {x : Cell} :
    readRV s a b = .ok (d, x) ↔ a = .register d ∧ resolve s b = .ok x := by
  unfold readRV
  cases ha : asReg a with
  | error r => simp [← asReg_ok, ha]
  | ok d' => cases hb : resolve s b <;> simp [← asReg_ok, ha]

theorem readVV_ok {s : State} {a b : Operand} {x y : Cell} :
    readVV s a b = .ok (x, y) ↔ resolve s a = .ok x ∧ resolve s b = .ok y := by
  unfold readVV
  cases ha : resolve s a with
  | error r => simp
  | ok d' => cases hb : resolve s b <;> simp

theorem readRVV_ok {s : State} {a b c : Operand} {d : RegIx} {x y : Cell} :
    readRVV s a b c = .ok (d, x, y) ↔ a = .register d ∧ resolve s b = .ok x ∧ resolve s c = .ok y := by
  unfold readRVV
  rw [← asReg_ok, ← readVV_ok]
  cases ha : asReg a with
  | error r => simp
  | ok d' => cases hb : readVV s b c <;> simp

theorem readRV_error {s : State} {a b : Operand} {r : Raised} (h : readRV s a b = .error r) :
    r.kind = .illegalWord ∨ r.kind = .expectedRegister := by
  unfold readRV at h
  split at h
  · next e ha => cases h; exact asReg_error ha
  · split at h
    · next e hb => cases h; exact .inl (resolve_error hb)
    · cases h

theorem readVV_error {s : State} {a b : Operand} {r : Raised} (h : readVV s a b = .error r) : r.kind = .illegalWord := by
  unfold readVV at h
  split at h
  · next e ha => cases h; exact resolve_error ha
  · split at h
    · next e hb => cases h; exact resolve_error hb
    · cases h

theorem readRVV_error {s : State} {a b c : Operand} {r : Raised} (h : readRVV s a b c = .error r) :
    r.kind = .illegalWord ∨ r.kind = .expectedRegister := by
  unfold readRVV at h
  split at h
  · next e ha => cases h; exact asReg_error ha
  · split at h
    · next e hb => cases h; exact .inl (readVV_error hb)
    · cases h

end Sys2Proof.Machine
end

