-- ==== Sys2Proof/Laws/Memory.lean ====
section
/-! SUPPORT. Memory: a read after a write, and every operation keeps the canonical form. -/

namespace Sys2Proof.Machine

/-! ### Reads of bytes -/

theorem readByte_eraseByte (m : Memory) (k j : Nat) :
    readByte (eraseByte m k) j = if j = k then unlistedByte else readByte m j := by
  induction m with
  | nil => simp [eraseByte, readByte]
  | cons e m ih =>
    obtain ⟨a, b⟩ := e
    by_cases hak : a = k
    · subst hak
      by_cases hj : j = a <;> simp_all [eraseByte, readByte, eq_comm]
    · by_cases haj : a = j
      · subst haj; simp [eraseByte, readByte, hak]
      · simp [eraseByte, readByte, hak, haj, ih]

theorem readByte_insertByte_ne (m : Memory) (k j : Nat) (v : Byte) (h : j ≠ k) :
    readByte (insertByte m k v) j = readByte m j := by
  induction m with
  | nil => simp [insertByte, readByte, h.symm]
  | cons e m ih =>
    obtain ⟨a, b⟩ := e
    by_cases hka : k < a
    · simp [insertByte, hka, readByte, h.symm]
    · simp only [insertByte, hka, if_false, readByte, ih]

theorem readByte_insert_erase_same (m : Memory) (k : Nat) (v : Byte) :
    readByte (insertByte (eraseByte m k) k v) k = v := by
  induction m with
  | nil => simp [eraseByte, insertByte, readByte]
  | cons e m ih =>
    obtain ⟨a, b⟩ := e
    by_cases hak : a = k
    · simp [eraseByte, hak, ih]
    · by_cases hka : k < a
      · simp [eraseByte, hak, insertByte, hka, readByte]
      · simp [eraseByte, hak, insertByte, hka, readByte, ih]

/-- A byte reads as written; every other byte reads as before. -/
theorem readByte_writeByte (m : Memory) (k j : Nat) (v : Byte) :
    readByte (writeByte m k v) j = if j = k then v else readByte m j := by
  unfold writeByte
  split
  · next h => rw [readByte_eraseByte, h]
  · by_cases hj : j = k
    · subst hj; simp [readByte_insert_erase_same]
    · simp [readByte_insertByte_ne _ _ _ _ hj, readByte_eraseByte, hj]

/-! ### Reads of cells -/

theorem cellOfBytes_low_high (c : Cell) : cellOfBytes (lowByte c) (highByte c) = c := by
  apply BitVec.eq_of_getLsbD_eq
  intro i hi
  simp only [cellOfBytes, lowByte, highByte, BitVec.getLsbD_append, BitVec.getLsbD_extractLsb']
  by_cases h : i < 8
  · simp [h]
  · simp [h, show i - 8 < 8 by omega, show 8 + (i - 8) = i by omega]

/-- A cell reads as written; every other cell reads as before (20_memory.md R43). -/
theorem memRead_memWriteCell (m : Memory) (a b : Nat) (c : Cell) :
    memRead (memWriteCell m a c) b = if b = a then c else memRead m b := by
  by_cases h : b = a
  · subst h
    simp [memRead, memWriteCell, readByte_writeByte, cellOfBytes_low_high]
  · simp [memRead, memWriteCell, readByte_writeByte, h, show ¬ 2 * b = 2 * a by omega,
      show ¬ 2 * b = 2 * a + 1 by omega, show ¬ 2 * b + 1 = 2 * a by omega]

@[simp] theorem memRead_nil (a : Nat) : memRead [] a = 0 := by
  simp only [memRead, readByte]
  decide

/-- Consecutive cells read as written; every other cell reads as before. -/
theorem memRead_memWriteCells (m : Memory) (a b : Nat) (cs : List Cell) (hfit : a + cs.length ≤ Config.memCells) :
    memRead (memWriteCells m a cs) b = if a ≤ b then (cs[b - a]?).getD (memRead m b) else memRead m b := by
  induction cs generalizing m a with
  | nil => simp [memWriteCells]
  | cons c cs ih =>
    simp only [List.length_cons] at hfit
    rw [memWriteCells, if_pos (by omega), ih _ _ (by omega), memRead_memWriteCell]
    by_cases h1 : a + 1 ≤ b
    · simp [h1, show b ≠ a by omega, show a ≤ b by omega, show b - a = (b - (a + 1)) + 1 by omega]
    · by_cases h2 : b = a
      · subst h2; simp
      · simp [h1, h2, show ¬ a ≤ b by omega]

/-! ### The canonical form -/

theorem canonicalFrom_mono {lo hi : Nat} (h : lo ≤ hi) : ∀ {m : Memory}, canonicalFrom hi m = true → canonicalFrom lo m = true
  | [], _ => rfl
  | (a, b) :: m, hm => by
    simp only [canonicalFrom, Bool.and_eq_true, decide_eq_true_eq] at hm ⊢
    exact ⟨⟨⟨by omega, hm.1.1.2⟩, hm.1.2⟩, hm.2⟩

theorem canonicalFrom_eraseByte (m : Memory) (k lo : Nat) (h : canonicalFrom lo m = true) :
    canonicalFrom lo (eraseByte m k) = true := by
  induction m generalizing lo with
  | nil => rfl
  | cons e m ih =>
    obtain ⟨a, b⟩ := e
    simp only [canonicalFrom, Bool.and_eq_true, decide_eq_true_eq] at h
    by_cases hak : a = k
    · simp only [eraseByte, hak, if_true]
      exact ih lo (canonicalFrom_mono (by omega) h.2)
    · simp only [eraseByte, hak, if_false, canonicalFrom, Bool.and_eq_true, decide_eq_true_eq]
      exact ⟨h.1, ih _ h.2⟩

theorem canonicalFrom_insert_erase (m : Memory) (k lo : Nat) (v : Byte) (h : canonicalFrom lo m = true) (hlo : lo ≤ k)
    (hk : k < 65536) (hv : v ≠ unlistedByte) : canonicalFrom lo (insertByte (eraseByte m k) k v) = true := by
  induction m generalizing lo with
  | nil => simp [eraseByte, insertByte, canonicalFrom, hlo, hk, hv]
  | cons e m ih =>
    obtain ⟨a, b⟩ := e
    simp only [canonicalFrom, Bool.and_eq_true, decide_eq_true_eq] at h
    by_cases hak : a = k
    · simp only [eraseByte, hak, if_true]
      exact ih lo (canonicalFrom_mono (by omega) h.2) hlo
    · by_cases hka : k < a
      · simp only [eraseByte, hak, if_false, insertByte, hka, if_true, canonicalFrom, Bool.and_eq_true, decide_eq_true_eq]
        exact ⟨⟨⟨hlo, hk⟩, hv⟩, ⟨⟨by omega, h.1.1.2⟩, h.1.2⟩, canonicalFrom_eraseByte m k _ h.2⟩
      · simp only [eraseByte, hak, if_false, insertByte, hka, canonicalFrom, Bool.and_eq_true, decide_eq_true_eq]
        exact ⟨h.1, ih _ h.2 (by omega)⟩

theorem writeByte_wf (m : Memory) (k : Nat) (v : Byte) (h : Memory.wf m = true) (hk : k < 65536) :
    Memory.wf (writeByte m k v) = true := by
  unfold writeByte
  split
  · exact canonicalFrom_eraseByte m k 0 h
  · next hv => exact canonicalFrom_insert_erase m k 0 v h (Nat.zero_le _) hk hv

theorem memWriteCell_wf (m : Memory) (a : Nat) (c : Cell) (h : Memory.wf m = true) (ha : a < 32768) :
    Memory.wf (memWriteCell m a c) = true :=
  writeByte_wf _ _ _ (writeByte_wf _ _ _ h (by omega)) (by omega)

theorem memWriteCells_wf (m : Memory) (a : Nat) (cs : List Cell) (h : Memory.wf m = true) :
    Memory.wf (memWriteCells m a cs) = true := by
  induction cs generalizing m a with
  | nil => exact h
  | cons c cs ih =>
    unfold memWriteCells
    split
    · next ha => exact ih _ _ (memWriteCell_wf m a c h ha)
    · exact h

/-- The memory after reset has the canonical form. -/
theorem reset_mem_wf : Memory.wf State.reset.mem = true := rfl

end Sys2Proof.Machine
end

