-- ==== Sys2Proof/Laws/State.lean ====
section
/-! SUPPORT. One lemma per field per update of State, so that no proof unfolds a record update, and the read of a register after
a write. -/

namespace Sys2Proof.Machine

@[simp] theorem writeReg_mem (s : State) (r : RegIx) (v : Cell) : (writeReg s r v).mem = s.mem := rfl
@[simp] theorem writeReg_regs (s : State) (r : RegIx) (v : Cell) : (writeReg s r v).regs = s.regs.set r.val v r.isLt := rfl
@[simp] theorem writeReg_stack (s : State) (r : RegIx) (v : Cell) : (writeReg s r v).stack = s.stack := rfl
@[simp] theorem writeReg_pc (s : State) (r : RegIx) (v : Cell) : (writeReg s r v).pc = s.pc := rfl
@[simp] theorem writeReg_inbuf (s : State) (r : RegIx) (v : Cell) : (writeReg s r v).inbuf = s.inbuf := rfl
@[simp] theorem writeReg_run (s : State) (r : RegIx) (v : Cell) : (writeReg s r v).run = s.run := rfl
@[simp] theorem writeReg_fault (s : State) (r : RegIx) (v : Cell) : (writeReg s r v).fault = s.fault := rfl
@[simp] theorem writeReg_output (s : State) (r : RegIx) (v : Cell) : (writeReg s r v).output = s.output := rfl
@[simp] theorem writeReg_env (s : State) (r : RegIx) (v : Cell) : (writeReg s r v).env = s.env := rfl

@[simp] theorem storeCell_mem (s : State) (a v : Cell) : (storeCell s a v).mem = memWriteCell s.mem a.toNat v := rfl
@[simp] theorem storeCell_regs (s : State) (a v : Cell) : (storeCell s a v).regs = s.regs := rfl
@[simp] theorem storeCell_stack (s : State) (a v : Cell) : (storeCell s a v).stack = s.stack := rfl
@[simp] theorem storeCell_pc (s : State) (a v : Cell) : (storeCell s a v).pc = s.pc := rfl
@[simp] theorem storeCell_inbuf (s : State) (a v : Cell) : (storeCell s a v).inbuf = s.inbuf := rfl
@[simp] theorem storeCell_run (s : State) (a v : Cell) : (storeCell s a v).run = s.run := rfl
@[simp] theorem storeCell_fault (s : State) (a v : Cell) : (storeCell s a v).fault = s.fault := rfl
@[simp] theorem storeCell_output (s : State) (a v : Cell) : (storeCell s a v).output = s.output := rfl
@[simp] theorem storeCell_env (s : State) (a v : Cell) : (storeCell s a v).env = s.env := rfl
@[simp] theorem readReg_storeCell (s : State) (a v : Cell) (i : RegIx) : readReg (storeCell s a v) i = readReg s i := rfl

@[simp] theorem pushEntry_mem (s : State) (v : Cell) : (pushEntry s v).mem = s.mem := rfl
@[simp] theorem pushEntry_regs (s : State) (v : Cell) : (pushEntry s v).regs = s.regs := rfl
@[simp] theorem pushEntry_stack (s : State) (v : Cell) : (pushEntry s v).stack = v :: s.stack := rfl
@[simp] theorem pushEntry_pc (s : State) (v : Cell) : (pushEntry s v).pc = s.pc := rfl
@[simp] theorem pushEntry_inbuf (s : State) (v : Cell) : (pushEntry s v).inbuf = s.inbuf := rfl
@[simp] theorem pushEntry_run (s : State) (v : Cell) : (pushEntry s v).run = s.run := rfl
@[simp] theorem pushEntry_fault (s : State) (v : Cell) : (pushEntry s v).fault = s.fault := rfl
@[simp] theorem pushEntry_output (s : State) (v : Cell) : (pushEntry s v).output = s.output := rfl
@[simp] theorem pushEntry_env (s : State) (v : Cell) : (pushEntry s v).env = s.env := rfl
@[simp] theorem readReg_pushEntry (s : State) (v : Cell) (i : RegIx) : readReg (pushEntry s v) i = readReg s i := rfl

@[simp] theorem withStack_mem (s : State) (l : List Cell) : (withStack s l).mem = s.mem := rfl
@[simp] theorem withStack_regs (s : State) (l : List Cell) : (withStack s l).regs = s.regs := rfl
@[simp] theorem withStack_stack (s : State) (l : List Cell) : (withStack s l).stack = l := rfl
@[simp] theorem withStack_pc (s : State) (l : List Cell) : (withStack s l).pc = s.pc := rfl
@[simp] theorem withStack_inbuf (s : State) (l : List Cell) : (withStack s l).inbuf = s.inbuf := rfl
@[simp] theorem withStack_run (s : State) (l : List Cell) : (withStack s l).run = s.run := rfl
@[simp] theorem withStack_fault (s : State) (l : List Cell) : (withStack s l).fault = s.fault := rfl
@[simp] theorem withStack_output (s : State) (l : List Cell) : (withStack s l).output = s.output := rfl
@[simp] theorem withStack_env (s : State) (l : List Cell) : (withStack s l).env = s.env := rfl
@[simp] theorem readReg_withStack (s : State) (l : List Cell) (i : RegIx) : readReg (withStack s l) i = readReg s i := rfl

@[simp] theorem advance_mem (s : State) (n : Nat) : (advance s n).mem = s.mem := rfl
@[simp] theorem advance_regs (s : State) (n : Nat) : (advance s n).regs = s.regs := rfl
@[simp] theorem advance_stack (s : State) (n : Nat) : (advance s n).stack = s.stack := rfl
@[simp] theorem advance_pc (s : State) (n : Nat) : (advance s n).pc = s.pc + BitVec.ofNat 16 n := rfl
@[simp] theorem advance_inbuf (s : State) (n : Nat) : (advance s n).inbuf = s.inbuf := rfl
@[simp] theorem advance_run (s : State) (n : Nat) : (advance s n).run = s.run := rfl
@[simp] theorem advance_fault (s : State) (n : Nat) : (advance s n).fault = s.fault := rfl
@[simp] theorem advance_output (s : State) (n : Nat) : (advance s n).output = s.output := rfl
@[simp] theorem advance_env (s : State) (n : Nat) : (advance s n).env = s.env := rfl
@[simp] theorem readReg_advance (s : State) (n : Nat) (i : RegIx) : readReg (advance s n) i = readReg s i := rfl

@[simp] theorem jumpTo_mem (s : State) (t : Cell) : (jumpTo s t).mem = s.mem := rfl
@[simp] theorem jumpTo_regs (s : State) (t : Cell) : (jumpTo s t).regs = s.regs := rfl
@[simp] theorem jumpTo_stack (s : State) (t : Cell) : (jumpTo s t).stack = s.stack := rfl
@[simp] theorem jumpTo_pc (s : State) (t : Cell) : (jumpTo s t).pc = t := rfl
@[simp] theorem jumpTo_inbuf (s : State) (t : Cell) : (jumpTo s t).inbuf = s.inbuf := rfl
@[simp] theorem jumpTo_run (s : State) (t : Cell) : (jumpTo s t).run = s.run := rfl
@[simp] theorem jumpTo_fault (s : State) (t : Cell) : (jumpTo s t).fault = s.fault := rfl
@[simp] theorem jumpTo_output (s : State) (t : Cell) : (jumpTo s t).output = s.output := rfl
@[simp] theorem jumpTo_env (s : State) (t : Cell) : (jumpTo s t).env = s.env := rfl
@[simp] theorem readReg_jumpTo (s : State) (t : Cell) (i : RegIx) : readReg (jumpTo s t) i = readReg s i := rfl

@[simp] theorem haltRun_mem (s : State) : (haltRun s).mem = s.mem := rfl
@[simp] theorem haltRun_regs (s : State) : (haltRun s).regs = s.regs := rfl
@[simp] theorem haltRun_stack (s : State) : (haltRun s).stack = s.stack := rfl
@[simp] theorem haltRun_pc (s : State) : (haltRun s).pc = s.pc := rfl
@[simp] theorem haltRun_inbuf (s : State) : (haltRun s).inbuf = s.inbuf := rfl
@[simp] theorem haltRun_run (s : State) : (haltRun s).run = .halted := rfl
@[simp] theorem haltRun_fault (s : State) : (haltRun s).fault = s.fault := rfl
@[simp] theorem haltRun_output (s : State) : (haltRun s).output = s.output := rfl
@[simp] theorem haltRun_env (s : State) : (haltRun s).env = s.env := rfl
@[simp] theorem readReg_haltRun (s : State) (i : RegIx) : readReg (haltRun s) i = readReg s i := rfl

@[simp] theorem faulted_mem (s : State) (op : Option Cell) (r : Raised) : (faulted s op r).mem = s.mem := rfl
@[simp] theorem faulted_regs (s : State) (op : Option Cell) (r : Raised) : (faulted s op r).regs = s.regs := rfl
@[simp] theorem faulted_stack (s : State) (op : Option Cell) (r : Raised) : (faulted s op r).stack = s.stack := rfl
@[simp] theorem faulted_pc (s : State) (op : Option Cell) (r : Raised) : (faulted s op r).pc = s.pc := rfl
@[simp] theorem faulted_inbuf (s : State) (op : Option Cell) (r : Raised) : (faulted s op r).inbuf = s.inbuf := rfl
@[simp] theorem faulted_run (s : State) (op : Option Cell) (r : Raised) : (faulted s op r).run = .faulted := rfl
@[simp] theorem faulted_fault (s : State) (op : Option Cell) (r : Raised) : (faulted s op r).fault = some { kind := r.kind, pc := s.pc, opcode := op, offending := r.offending } := rfl
@[simp] theorem faulted_output (s : State) (op : Option Cell) (r : Raised) : (faulted s op r).output = s.output := rfl
@[simp] theorem faulted_env (s : State) (op : Option Cell) (r : Raised) : (faulted s op r).env = s.env := rfl
@[simp] theorem readReg_faulted (s : State) (op : Option Cell) (r : Raised) (i : RegIx) : readReg (faulted s op r) i = readReg s i := rfl

@[simp] theorem readReg_writeReg_same (s : State) (r : RegIx) (v : Cell) : readReg (writeReg s r v) r = v := by
  simp [readReg, writeReg]

theorem readReg_writeReg_ne (s : State) (r i : RegIx) (v : Cell) (h : i ≠ r) :
    readReg (writeReg s r v) i = readReg s i := by
  have h' : r.val ≠ i.val := fun e => h (Fin.ext e.symm)
  simp [readReg, writeReg, h']

/-- A write changes the register it names and no other. -/
theorem readReg_writeReg (s : State) (r i : RegIx) (v : Cell) :
    readReg (writeReg s r v) i = if i = r then v else readReg s i := by
  split
  · next h => subst h; exact readReg_writeReg_same s i v
  · next h => exact readReg_writeReg_ne s r i v h

end Sys2Proof.Machine
end

