-- ==== Sys2Proof/Laws/Ops.lean ====
section
/-! SUPPORT. One lemma per shared operation: everything it can answer. -/

namespace Sys2Proof.Machine

theorem faultsWith_takeFault (s : State) (op : Cell) (r : Raised) :
    FaultsWith (takeFault s op r) s r.kind (some op) r.offending := rfl

/-- With BEYOND_IMAGE = zero every data address that is a word exists. -/
theorem checkAddress_zero (s : State) {a : Cell} (h : s.env.beyondImage = .zero) (ha : a.toNat < 32768) :
    checkAddress s a = .ok () := by
  simp [checkAddress, memBound, h, Config.memCells, ha]

theorem checkAddress_ok {s : State} {a : Cell} : checkAddress s a = .ok () ↔ a.toNat < memBound s.env := by
  unfold checkAddress
  split <;> simp_all

theorem checkAddress_error {s : State} {a : Cell} {r : Raised} (h : checkAddress s a = .error r) :
    memBound s.env ≤ a.toNat ∧ r = { kind := .addressOutOfRange, offending := some (.address a.toNat) } := by
  unfold checkAddress at h
  split at h
  · cases h
  · next hn => cases h; exact ⟨by omega, rfl⟩

/-- A cell that `rmem` has read goes to the register unchanged: one that holds a word, or any with RMEM_HIGH = raw16. -/
theorem loadedCell_ok {h : RmemHigh} {c v : Cell} : loadedCell h c = .ok v ↔ (c.toNat < 32768 ∨ h = .raw16) ∧ v = c := by
  unfold loadedCell
  by_cases hc : c.toNat < 32768
  · simp [hc, eq_comm]
  · cases h <;> simp [hc, eq_comm]

theorem loadedCell_error {h : RmemHigh} {c : Cell} {r : Raised} (he : loadedCell h c = .error r) :
    32768 ≤ c.toNat ∧ h = .fault ∧ r = { kind := .rawWordOutOfRange, offending := some (.cell c) } := by
  unfold loadedCell at he
  split at he
  · cases he
  · next hc =>
    cases h
    · cases he; exact ⟨by omega, rfl, rfl⟩
    · cases he

theorem loadCell_ok {s : State} {a v : Cell} :
    loadCell s a = .ok v ↔
      a.toNat < memBound s.env ∧ ((memRead s.mem a.toNat).toNat < 32768 ∨ s.env.rmemHigh = .raw16) ∧
        v = memRead s.mem a.toNat := by
  unfold loadCell
  cases h : checkAddress s a with
  | error r =>
    have := (checkAddress_error h).1
    simp; omega
  | ok u =>
    have := checkAddress_ok.1 h
    simp only [this, true_and, loadedCell_ok]

theorem loadCell_error {s : State} {a : Cell} {r : Raised} (h : loadCell s a = .error r) :
    (memBound s.env ≤ a.toNat ∧ r = { kind := .addressOutOfRange, offending := some (.address a.toNat) }) ∨
    (32768 ≤ (memRead s.mem a.toNat).toNat ∧ s.env.rmemHigh = .fault ∧
      r = { kind := .rawWordOutOfRange, offending := some (.cell (memRead s.mem a.toNat)) }) := by
  unfold loadCell at h
  split at h
  · next e he => cases h; exact .inl (checkAddress_error he)
  · exact .inr (loadedCell_error h)

theorem returnAddress_ok {s : State} {v : Cell} :
    returnAddress s = .ok v ↔ s.pc.toNat + 2 < 32768 ∧ v = BitVec.ofNat 16 (s.pc.toNat + 2) := by
  unfold returnAddress
  split <;> simp_all [eq_comm]

theorem returnAddress_error {s : State} {r : Raised} (h : returnAddress s = .error r) :
    32768 ≤ s.pc.toNat + 2 ∧ r = { kind := .addressOutOfRange, offending := some (.address (s.pc.toNat + 2)) } := by
  unfold returnAddress at h
  split at h
  · cases h
  · next hn => cases h; exact ⟨by omega, rfl⟩

/-- A return address is a word. -/
theorem returnAddress_lt {s : State} {v : Cell} (h : returnAddress s = .ok v) : v.toNat < 32768 := by
  obtain ⟨hp, rfl⟩ := returnAddress_ok.1 h
  simp only [BitVec.toNat_ofNat]; omega

/-- An accepted write adds one code to the output and changes nothing else but the host's count of writes. -/
theorem emitChar_accepted {s t : State} {v : Cell} (h : emitChar s v = .accepted t) :
    ∃ w, t = { s with output := s.output ++ [v], env := { s.env with writesLeft := w } } := by
  unfold emitChar at h
  split at h
  · next hw => cases h; exact ⟨none, by rw [← hw]⟩
  · cases h
  · next n hw => cases h; exact ⟨some n, rfl⟩

theorem emitChar_failed {s : State} {v : Cell} : emitChar s v = .failed ↔ s.env.writesLeft = some 0 := by
  unfold emitChar
  split <;> simp_all

/-- An answer of the host is the first one listed, or with none listed a free one; it is used up and no other parameter changes. -/
theorem nextAnswer_some {e e' : Env} {a : HostAnswer} (h : nextAnswer e = some (a, e')) :
    (∃ more, e.answers = a :: more ∧ e' = { e with answers := more }) ∨
    (∃ n codes, e.answers = [] ∧ e.later = .free n ∧ Config.hostLine n = some codes ∧ a = .line codes ∧
      e' = { e with later := .free (n + 1) }) := by
  unfold nextAnswer at h
  split at h
  · next more ha => cases h; exact .inl ⟨_, ha, rfl⟩
  · next ha =>
    split at h
    · cases h
    · next n hl =>
      cases hc : Config.hostLine n with
      | none => rw [hc] at h; cases h
      | some codes => rw [hc] at h; cases h; exact .inr ⟨n, codes, ha, hl, hc, rfl, rfl⟩

/-- A code taken from the input leaves everything but the buffer and the parameters as it was, and those too where the buffer
held it. -/
theorem nextInput_code {s t : State} {v : Word} (h : nextInput s = .code v t) :
    ∃ buf e, t = { s with inbuf := buf, env := e } ∧
      ((s.inbuf = v :: buf ∧ e = s.env) ∨ (s.inbuf = [] ∧ nextAnswer s.env = some (.line (v :: buf), e))) := by
  unfold nextInput at h
  split at h
  · next c rest hb => cases h; exact ⟨_, _, rfl, .inl ⟨hb, rfl⟩⟩
  · next hb =>
    split at h
    · cases h
    · cases h
    · cases h
    · next c rest e ha => cases h; exact ⟨_, _, rfl, .inr ⟨hb, ha⟩⟩

theorem nextInput_waiting {s : State} : nextInput s = .waiting ↔ s.inbuf = [] ∧ nextAnswer s.env = none := by
  unfold nextInput
  split
  · simp_all
  · split <;> simp_all

/-! ### Registers, stack and output hold words -/

/-- Whether only words are held depends on registers, stack and output alone. -/
theorem holdsWords_congr {s t : State} (hr : t.regs = s.regs) (hs : t.stack = s.stack) (ho : t.output = s.output)
    (h : HoldsWords s) : HoldsWords t := by
  simpa only [HoldsWords, readReg, hr, hs, ho] using h

theorem holdsWords_writeReg {s : State} {v : Cell} (d : RegIx) (h : HoldsWords s) (hv : v.toNat < 32768) :
    HoldsWords (writeReg s d v) := by
  refine ⟨fun r => ?_, h.2⟩
  rw [readReg_writeReg]
  split
  · exact hv
  · exact h.1 r

theorem holdsWords_pushEntry {s : State} {v : Cell} (h : HoldsWords s) (hv : v.toNat < 32768) :
    HoldsWords (pushEntry s v) :=
  ⟨h.1, by simpa using ⟨hv, h.2.1⟩, h.2.2⟩

/-- Taking the top entry off the stack. -/
theorem holdsWords_withStack {s : State} {v : Cell} {l : List Cell} (h : HoldsWords s) (hs : s.stack = v :: l) :
    v.toNat < 32768 ∧ HoldsWords (withStack s l) := by
  have hl := h.2.1
  rw [hs] at hl
  exact ⟨hl v (by simp), h.1, fun x hx => hl x (by simp [withStack] at hx; simp [hx]), h.2.2⟩

/-- A running state takes a fatal error with nothing but RUN and FAULT changed. -/
theorem faulted_inv {s : State} (op : Option Cell) (r : Raised) (h : Inv s) : Inv (faulted s op r) :=
  ⟨h.1, by simp [FaultRecordMatchesRun], h.2.2⟩

end Sys2Proof.Machine
end

