-- ==== Sys2Proof/Laws/Exec.lean ====
section
/-! SUPPORT. Everything an instruction can do, said once: in any state it answers a next state, by one of the cases of ExecCase.
Invariants and frames follow by cases on it. -/

namespace Sys2Proof.Machine

/-- How `exec i s` came to answer the next state `t`. -/
inductive ExecCase (i : Instr) (s t : State) : Prop where
  /-- a fatal error of those the matrix lists (60_exceptions.md R180) -/
  | fatal (r : Raised) (ht : t = faulted s (some i.opcode) r) (hk : r.kind ∈ mayRaise i)
      (ha : s.env.beyondImage = .zero → HoldsWords s → r.kind = .addressOutOfRange → ∃ a, i = .call a)
  | halt (hi : i = .halt) (ht : t = haltRun s)
  | noop (hi : i = .noop) (ht : t = advance s 1)
  /-- a result in the destination register, all but `pop` and `in` -/
  | result (d : RegIx) (v : Cell) (n : Nat) (hi : destination i = some (.register d))
      (hn : n = 1 + operandCount i.opcode.toNat) (hpop : ∀ a, i ≠ .pop a) (hinp : ∀ a, i ≠ .inp a)
      (hv : s.env.rmemHigh = .fault → HoldsWords s → v.toNat < 32768) (ht : t = advance (writeReg s d v) n)
  | push (a : Operand) (x : Cell) (hi : i = .push a) (hx : HoldsWords s → x.toNat < 32768)
      (ht : t = advance (pushEntry s x) 2)
  | pop (d : RegIx) (v : Cell) (l : List Cell) (hi : i = .pop (.register d)) (hs : s.stack = v :: l)
      (ht : t = advance (writeReg (withStack s l) d v) 2)
  /-- `jmp`, or `jt` and `jf` taken -/
  | jump (x : Cell) (hi : (∃ a, i = .jmp a) ∨ (∃ a b y, i = .jt a b ∧ resolve s a = .ok y ∧ y.toNat ≠ 0) ∨
      (∃ a b y, i = .jf a b ∧ resolve s a = .ok y ∧ y.toNat = 0)) (hx : HoldsWords s → x.toNat < 32768) (ht : t = jumpTo s x)
  /-- `jt` and `jf` not taken -/
  | notTaken (hi : (∃ a b y, i = .jt a b ∧ resolve s a = .ok y ∧ y.toNat = 0) ∨
      (∃ a b y, i = .jf a b ∧ resolve s a = .ok y ∧ y.toNat ≠ 0)) (ht : t = advance s 3)
  | call (a : Operand) (back x : Cell) (hi : i = .call a) (hb : back.toNat < 32768) (hx : HoldsWords s → x.toNat < 32768)
      (ht : t = jumpTo (pushEntry s back) x)
  /-- `ret` on an empty stack with RET_EMPTY = halt -/
  | retEmpty (hi : i = .ret) (hs : s.stack = []) (ht : t = haltRun s)
  | ret (x : Cell) (l : List Cell) (hi : i = .ret) (hs : s.stack = x :: l) (ht : t = jumpTo (withStack s l) (usedAs .target x))
  | wmem (a b : Operand) (ea v : Cell) (hi : i = .wmem a b) (ha : DataAddress s a ea)
      (hv : ∃ y, resolve s b = .ok y ∧ v = usedAs .stored y) (hb : ea.toNat < memBound s.env)
      (ht : t = advance (storeCell s ea v) 3)
  | out (a : Operand) (v : Cell) (u : State) (hi : i = .out a) (hv : ∃ y, resolve s a = .ok y ∧ v = usedAs .code y)
      (he : emitChar s v = .accepted u) (ht : t = advance u 2)
  /-- `in` while the host is silent -/
  | waits (a : Operand) (hi : i = .inp a) (ht : t = s)
  | inp (d : RegIx) (v : Word) (u : State) (hi : i = .inp (.register d)) (he : nextInput s = .code v u)
      (ht : t = advance (writeReg u d (cellOfWord v)) 2)

/-- An operand fault is no AddressOutOfRange. -/
theorem operandFault_not_address {r : Raised} (h : r.kind = .illegalWord ∨ r.kind = .expectedRegister) :
    r.kind ≠ .addressOutOfRange := by
  rcases h with h | h <;> simp [h]

/-- A fatal error at an operand, of an instruction that lists IllegalWord and ExpectedRegister. -/
theorem ExecCase.operands {i : Instr} {s t : State} {r : Raised} (h : r.kind = .illegalWord ∨ r.kind = .expectedRegister)
    (hk : r.kind ∈ mayRaise i) (ht : t = faulted s (some i.opcode) r) : ExecCase i s t :=
  .fatal r ht hk fun _ _ ha => absurd ha (operandFault_not_address h)

theorem execSet_cases (a b : Operand) (s t : State) (h : execSet a b s = .next t) : ExecCase (.set a b) s t := by
  unfold execSet at h
  split at h
  · next r e =>
    have hr := readRV_error e
    cases h
    exact .operands hr (by simp [mayRaise, hr]) rfl
  · next d x e =>
    obtain ⟨rfl, hx⟩ := readRV_ok.1 e
    cases h
    exact .result d _ _ rfl rfl (by simp) (by simp) (fun _ hw => resolve_lt hw hx) rfl

theorem execPush_cases (a : Operand) (s t : State) (h : execPush a s = .next t) : ExecCase (.push a) s t := by
  unfold execPush at h
  split at h
  · next r e =>
    have hr := resolve_error e
    cases h
    exact .operands (.inl hr) (by simp [mayRaise, hr]) rfl
  · next x e => cases h; exact .push a _ rfl (fun hw => usedAs_lt _ (resolve_lt hw e)) rfl

theorem execPop_cases (a : Operand) (s t : State) (h : execPop a s = .next t) : ExecCase (.pop a) s t := by
  unfold execPop at h
  split at h
  · next r e =>
    have hr := asReg_error e
    cases h
    exact .operands hr (by rcases hr with hr | hr <;> simp [mayRaise, hr]) rfl
  · next d e =>
    obtain rfl := asReg_ok.1 e
    split at h
    · cases h
      exact .fatal _ rfl (by simp [mayRaise]) fun _ _ ha => by cases ha
    · next v l hs => cases h; exact .pop d v l rfl hs rfl

theorem execEq_cases (a b c : Operand) (s t : State) (h : execEq a b c s = .next t) : ExecCase (.eq a b c) s t := by
  unfold execEq at h
  split at h
  · next r e =>
    have hr := readRVV_error e
    cases h
    exact .operands hr (by simp [mayRaise, hr]) rfl
  · next d x y e =>
    obtain ⟨rfl, -, -⟩ := readRVV_ok.1 e
    cases h
    exact .result d _ _ rfl rfl (by simp) (by simp) (fun _ _ => truthCell_lt _) rfl

theorem execGt_cases (a b c : Operand) (s t : State) (h : execGt a b c s = .next t) : ExecCase (.gt a b c) s t := by
  unfold execGt at h
  split at h
  · next r e =>
    have hr := readRVV_error e
    cases h
    exact .operands hr (by simp [mayRaise, hr]) rfl
  · next d x y e =>
    obtain ⟨rfl, -, -⟩ := readRVV_ok.1 e
    cases h
    exact .result d _ _ rfl rfl (by simp) (by simp) (fun _ _ => truthCell_lt _) rfl

theorem execJmp_cases (a : Operand) (s t : State) (h : execJmp a s = .next t) : ExecCase (.jmp a) s t := by
  unfold execJmp at h
  split at h
  · next r e =>
    have hr := resolve_error e
    cases h
    exact .operands (.inl hr) (by simp [mayRaise, hr]) rfl
  · next x e => cases h; exact .jump _ (.inl ⟨a, rfl⟩) (fun hw => usedAs_lt _ (resolve_lt hw e)) rfl

theorem execJt_cases (a b : Operand) (s t : State) (h : execJt a b s = .next t) : ExecCase (.jt a b) s t := by
  unfold execJt at h
  split at h
  · next r e =>
    have hr := readVV_error e
    cases h
    exact .operands (.inl hr) (by simp [mayRaise, hr]) rfl
  · next x y e =>
    obtain ⟨hx, hy⟩ := readVV_ok.1 e
    cases h
    split
    · next hc => exact .jump _ (.inr (.inl ⟨a, b, x, rfl, hx, truthy_iff.1 hc⟩)) (fun hw => usedAs_lt _ (resolve_lt hw hy)) rfl
    · next hc => exact .notTaken (.inl ⟨a, b, x, rfl, hx, Decidable.not_not.1 (fun hn => hc (truthy_iff.2 hn))⟩) rfl

theorem execJf_cases (a b : Operand) (s t : State) (h : execJf a b s = .next t) : ExecCase (.jf a b) s t := by
  unfold execJf at h
  split at h
  · next r e =>
    have hr := readVV_error e
    cases h
    exact .operands (.inl hr) (by simp [mayRaise, hr]) rfl
  · next x y e =>
    obtain ⟨hx, hy⟩ := readVV_ok.1 e
    cases h
    split
    · next hc => exact .notTaken (.inr ⟨a, b, x, rfl, hx, truthy_iff.1 hc⟩) rfl
    · next hc =>
      exact .jump _ (.inr (.inr ⟨a, b, x, rfl, hx, Decidable.not_not.1 (fun hn => hc (truthy_iff.2 hn))⟩))
        (fun hw => usedAs_lt _ (resolve_lt hw hy)) rfl

theorem execCall_cases (a : Operand) (s t : State) (h : execCall a s = .next t) : ExecCase (.call a) s t := by
  unfold execCall at h
  split at h
  · next r e =>
    have hr := resolve_error e
    cases h
    exact .operands (.inl hr) (by simp [mayRaise, hr]) rfl
  · next x e =>
    split at h
    · next r e' =>
      obtain ⟨-, rfl⟩ := returnAddress_error e'
      cases h
      exact .fatal _ rfl (by simp [mayRaise]) fun _ _ _ => ⟨a, rfl⟩
    · next back e' => cases h; exact .call a back _ rfl (returnAddress_lt e') (fun hw => usedAs_lt _ (resolve_lt hw e)) rfl

theorem execRet_cases (s t : State) (h : execRet s = .next t) : ExecCase .ret s t := by
  unfold execRet at h
  split at h
  · next hs =>
    unfold retOnEmpty at h
    split at h
    · cases h
      exact .fatal _ rfl (by simp [mayRaise]) fun _ _ ha => by cases ha
    · cases h; exact .retEmpty rfl hs rfl
  · next x l hs => cases h; exact .ret x l rfl hs rfl

theorem execAdd_cases (a b c : Operand) (s t : State) (h : execAdd a b c s = .next t) : ExecCase (.add a b c) s t := by
  unfold execAdd at h
  split at h
  · next r e =>
    have hr := readRVV_error e
    cases h
    exact .operands hr (by simp [mayRaise, hr]) rfl
  · next d x y e =>
    obtain ⟨rfl, -, -⟩ := readRVV_ok.1 e
    cases h
    exact .result d _ _ rfl rfl (by simp) (by simp) (fun _ _ => addResult_lt x y) rfl

theorem execMult_cases (a b c : Operand) (s t : State) (h : execMult a b c s = .next t) : ExecCase (.mult a b c) s t := by
  unfold execMult at h
  split at h
  · next r e =>
    have hr := readRVV_error e
    cases h
    exact .operands hr (by simp [mayRaise, hr]) rfl
  · next d x y e =>
    obtain ⟨rfl, -, -⟩ := readRVV_ok.1 e
    cases h
    exact .result d _ _ rfl rfl (by simp) (by simp) (fun _ _ => multResult_lt x y) rfl

theorem execAnd_cases (a b c : Operand) (s t : State) (h : execAnd a b c s = .next t) : ExecCase (.and a b c) s t := by
  unfold execAnd at h
  split at h
  · next r e =>
    have hr := readRVV_error e
    cases h
    exact .operands hr (by simp [mayRaise, hr]) rfl
  · next d x y e =>
    obtain ⟨rfl, -, -⟩ := readRVV_ok.1 e
    cases h
    exact .result d _ _ rfl rfl (by simp) (by simp) (fun _ _ => andResult_lt x y) rfl

theorem execOr_cases (a b c : Operand) (s t : State) (h : execOr a b c s = .next t) : ExecCase (.or a b c) s t := by
  unfold execOr at h
  split at h
  · next r e =>
    have hr := readRVV_error e
    cases h
    exact .operands hr (by simp [mayRaise, hr]) rfl
  · next d x y e =>
    obtain ⟨rfl, -, -⟩ := readRVV_ok.1 e
    cases h
    exact .result d _ _ rfl rfl (by simp) (by simp) (fun _ _ => orResult_lt x y) rfl

theorem execMod_cases (a b c : Operand) (s t : State) (h : execMod a b c s = .next t) : ExecCase (.mod a b c) s t := by
  unfold execMod at h
  split at h
  · next r e =>
    have hr := readRVV_error e
    cases h
    exact .operands hr (by rcases hr with hr | hr <;> simp [mayRaise, hr]) rfl
  · next d x y e =>
    obtain ⟨rfl, hx, hy⟩ := readRVV_ok.1 e
    split at h
    · cases h
      exact .fatal _ rfl (by simp [mayRaise]) fun _ _ ha => by cases ha
    · cases h; exact .result d _ _ rfl rfl (by simp) (by simp)
        (fun _ hw => usedAs_lt _ (modResult_lt x (resolve_lt hw hx))) rfl

theorem execNot_cases (a b : Operand) (s t : State) (h : execNot a b s = .next t) : ExecCase (.not a b) s t := by
  unfold execNot at h
  split at h
  · next r e =>
    have hr := readRV_error e
    cases h
    exact .operands hr (by simp [mayRaise, hr]) rfl
  · next d x e =>
    obtain ⟨rfl, -⟩ := readRV_ok.1 e
    cases h
    exact .result d _ _ rfl rfl (by simp) (by simp) (fun _ _ => notResult_lt x) rfl

theorem execRmem_cases (a b : Operand) (s t : State) (h : execRmem a b s = .next t) : ExecCase (.rmem a b) s t := by
  unfold execRmem at h
  split at h
  · next r e =>
    have hr := readRV_error e
    cases h
    exact .operands hr (by rcases hr with hr | hr <;> simp [mayRaise, hr]) rfl
  · next d ea e =>
    obtain ⟨rfl, hx⟩ := readRV_ok.1 e
    split at h
    · next r e' =>
      cases h
      rcases loadCell_error e' with ⟨hb, rfl⟩ | ⟨-, -, rfl⟩
      · exact .fatal _ rfl (by simp [mayRaise]) fun hz hw =>
          absurd hb (Nat.not_le.2 (checkAddress_ok.1 (checkAddress_zero s hz (usedAs_lt _ (resolve_lt hw hx)))))
      · exact .fatal _ rfl (by simp [mayRaise]) fun _ _ ha => by cases ha
    · next v e' =>
      obtain ⟨-, hc, rfl⟩ := loadCell_ok.1 e'
      cases h
      exact .result d _ _ rfl rfl (by simp) (by simp) (fun hf _ => hc.resolve_right (by simp [hf])) rfl

theorem execWmem_cases (a b : Operand) (s t : State) (h : execWmem a b s = .next t) : ExecCase (.wmem a b) s t := by
  unfold execWmem at h
  split at h
  · next r e =>
    have hr := readVV_error e
    cases h
    exact .operands (.inl hr) (by simp [mayRaise, hr]) rfl
  · next ea v e =>
    obtain ⟨ha, hv⟩ := readVV_ok.1 e
    split at h
    · next r e' =>
      cases h
      obtain ⟨hb, rfl⟩ := checkAddress_error e'
      exact .fatal _ rfl (by simp [mayRaise]) fun hz hw =>
        absurd hb (Nat.not_le.2 (checkAddress_ok.1 (checkAddress_zero s hz (usedAs_lt _ (resolve_lt hw ha)))))
    · next e' => cases h; exact .wmem a b _ _ rfl ⟨ea, ha, rfl⟩ ⟨v, hv, rfl⟩ (checkAddress_ok.1 e') rfl

theorem execOut_cases (a : Operand) (s t : State) (h : execOut a s = .next t) : ExecCase (.out a) s t := by
  unfold execOut at h
  split at h
  · next r e =>
    have hr := resolve_error e
    cases h
    exact .operands (.inl hr) (by simp [mayRaise, hr]) rfl
  · next v hv =>
    split at h
    · cases h
      exact .fatal _ rfl (by simp [mayRaise]) fun _ _ ha => by cases ha
    · next u he => cases h; exact .out a _ u rfl ⟨v, hv, rfl⟩ he rfl

theorem execInp_cases (a : Operand) (s t : State) (h : execInp a s = .next t) : ExecCase (.inp a) s t := by
  unfold execInp at h
  split at h
  · next r e =>
    have hr := asReg_error e
    cases h
    exact .operands hr (by rcases hr with hr | hr <;> simp [mayRaise, hr]) rfl
  · next d e =>
    obtain rfl := asReg_ok.1 e
    split at h
    · cases h; exact .waits _ rfl rfl
    · cases h
      exact .fatal _ rfl (by simp [mayRaise]) fun _ _ ha => by cases ha
    · next v u he => cases h; exact .inp d v u rfl he rfl

/-- A next state of any instruction comes about in one of the ways of ExecCase. -/
theorem exec_cases {i : Instr} {s t : State} (h : exec i s = .next t) : ExecCase i s t := by
  cases i with
  | halt => cases h; exact .halt rfl rfl
  | set a b => exact execSet_cases a b s t h
  | push a => exact execPush_cases a s t h
  | pop a => exact execPop_cases a s t h
  | eq a b c => exact execEq_cases a b c s t h
  | gt a b c => exact execGt_cases a b c s t h
  | jmp a => exact execJmp_cases a s t h
  | jt a b => exact execJt_cases a b s t h
  | jf a b => exact execJf_cases a b s t h
  | add a b c => exact execAdd_cases a b c s t h
  | mult a b c => exact execMult_cases a b c s t h
  | mod a b c => exact execMod_cases a b c s t h
  | and a b c => exact execAnd_cases a b c s t h
  | or a b c => exact execOr_cases a b c s t h
  | not a b => exact execNot_cases a b s t h
  | rmem a b => exact execRmem_cases a b s t h
  | wmem a b => exact execWmem_cases a b s t h
  | call a => exact execCall_cases a s t h
  | ret => exact execRet_cases s t h
  | out a => exact execOut_cases a s t h
  | inp a => exact execInp_cases a s t h
  | noop => cases h; exact .noop rfl rfl

end Sys2Proof.Machine
end

