-- ==== Sys2Proof/Laws/PerInstr.lean ====
section
/-! SUPPORT. Statements made per instruction, about the instruction as syntax. EncodedLength: its cells are the opcode and as many
operand cells as the opcode map gives it, one to four in all (30_encoding.md R60, R62, R65). -/

/-- The encoding of an instruction starts with its opcode, a value below 22, and is as long as the opcode map says. -/
def Sys2Proof.Laws.EncodedLength.Statement (i : Sys2Proof.Instr) : Prop :=
  (Sys2Proof.encode i).head? = some i.opcode ∧ i.opcode.toNat < 22 ∧
    (Sys2Proof.encode i).length = 1 + Sys2Proof.Machine.operandCount i.opcode.toNat

namespace Sys2Proof.Laws.EncodedLength

theorem halt : Statement .halt := ⟨rfl, of_decide_eq_true rfl, rfl⟩
theorem set (a b : Operand) : Statement (.set a b) := ⟨rfl, of_decide_eq_true rfl, rfl⟩
theorem push (a : Operand) : Statement (.push a) := ⟨rfl, of_decide_eq_true rfl, rfl⟩
theorem pop (a : Operand) : Statement (.pop a) := ⟨rfl, of_decide_eq_true rfl, rfl⟩
theorem eq (a b c : Operand) : Statement (.eq a b c) := ⟨rfl, of_decide_eq_true rfl, rfl⟩
theorem gt (a b c : Operand) : Statement (.gt a b c) := ⟨rfl, of_decide_eq_true rfl, rfl⟩
theorem jmp (a : Operand) : Statement (.jmp a) := ⟨rfl, of_decide_eq_true rfl, rfl⟩
theorem jt (a b : Operand) : Statement (.jt a b) := ⟨rfl, of_decide_eq_true rfl, rfl⟩
theorem jf (a b : Operand) : Statement (.jf a b) := ⟨rfl, of_decide_eq_true rfl, rfl⟩
theorem add (a b c : Operand) : Statement (.add a b c) := ⟨rfl, of_decide_eq_true rfl, rfl⟩
theorem mult (a b c : Operand) : Statement (.mult a b c) := ⟨rfl, of_decide_eq_true rfl, rfl⟩
theorem mod (a b c : Operand) : Statement (.mod a b c) := ⟨rfl, of_decide_eq_true rfl, rfl⟩
theorem and (a b c : Operand) : Statement (.and a b c) := ⟨rfl, of_decide_eq_true rfl, rfl⟩
theorem or (a b c : Operand) : Statement (.or a b c) := ⟨rfl, of_decide_eq_true rfl, rfl⟩
theorem not (a b : Operand) : Statement (.not a b) := ⟨rfl, of_decide_eq_true rfl, rfl⟩
theorem rmem (a b : Operand) : Statement (.rmem a b) := ⟨rfl, of_decide_eq_true rfl, rfl⟩
theorem wmem (a b : Operand) : Statement (.wmem a b) := ⟨rfl, of_decide_eq_true rfl, rfl⟩
theorem call (a : Operand) : Statement (.call a) := ⟨rfl, of_decide_eq_true rfl, rfl⟩
theorem ret : Statement .ret := ⟨rfl, of_decide_eq_true rfl, rfl⟩
theorem out (a : Operand) : Statement (.out a) := ⟨rfl, of_decide_eq_true rfl, rfl⟩
theorem inp (a : Operand) : Statement (.inp a) := ⟨rfl, of_decide_eq_true rfl, rfl⟩
theorem noop : Statement .noop := ⟨rfl, of_decide_eq_true rfl, rfl⟩

end Sys2Proof.Laws.EncodedLength
end

