-- ==== Sys2Proof/Laws/Step.lean ====
section
/-! SUPPORT. What a step can do: none in a stopped state; else the fetch raises, or the instruction at pc is executed. Placing an
instruction makes it the one the next step executes. -/

namespace Sys2Proof.Machine

theorem step_running (s : State) (h : s.run = .running) :
    step s = match fetchInstr s with
      | .instr i => exec i s
      | .raised op r => .next (faulted s op r) := by
  cases hf : fetchInstr s <;> simp only [step, h, hf]

theorem fetchInstr_ok {s : State} {i : Instr} :
    fetchInstr s = .instr i ↔ ∃ rest, decode (fetchWindow s) = .ok i rest := by
  unfold fetchInstr
  cases h : decode (fetchWindow s) <;> simp

/-- A step that answers a next state started from a running one, and either the fetch raised or an instruction was executed. -/
theorem step_cases {s t : State} (h : step s = .next t) :
    s.run = .running ∧
      ((∃ op r, fetchInstr s = .raised op r ∧ t = faulted s op r) ∨
       (∃ i rest, decode (fetchWindow s) = .ok i rest ∧ exec i s = .next t)) := by
  unfold step at h
  split at h
  · cases h
  · cases h
  · next hr =>
    refine ⟨hr, ?_⟩
    split at h
    · next i hi => exact .inr ⟨i, (fetchInstr_ok.1 hi).choose, (fetchInstr_ok.1 hi).choose_spec, h⟩
    · next op r hf => cases h; exact .inl ⟨op, r, hf, rfl⟩

/-- A state made ready to fetch has room for the longest instruction at pc. -/
theorem readyToFetch_room (s : State) : s.readyToFetch.pc.toNat + 4 ≤ memBound s.readyToFetch.env := by
  unfold State.readyToFetch
  split
  · assumption
  · simp [memBound, Config.memCells]

/-- The fetch window holds the cells that were placed. -/
theorem fetchWindow_withFetchWord (s : State) (nbits w : Nat) :
    fetchWindow (s.withFetchWord nbits w) = tableCells nbits w := by
  have hr := readyToFetch_room s
  have hb : memBound (s.withFetchWord nbits w).env = memBound s.readyToFetch.env := rfl
  have hp : (s.withFetchWord nbits w).pc = s.readyToFetch.pc := rfl
  have hl := memBound_le s.readyToFetch.env
  apply List.ext_getElem?
  intro k
  by_cases hk : k < 4
  · rw [fetchWindow, fetchCells_getElem? _ _ _ _ hk (by rw [hb, hp]; omega)]
    simp only [State.withFetchWord]
    rw [memRead_memWriteCells _ _ _ _ (by simp [tableCells, Config.memCells]; omega)]
    simp [hk, tableCells]
  · rw [List.getElem?_eq_none (by rw [fetchWindow, fetchCells_length]; omega),
      List.getElem?_eq_none (by simp [tableCells]; omega)]

/-- The very next step executes the instruction that was placed. -/
theorem step_withFetchWord (s : State) (nbits w : Nat) (i : Instr) (h : decodeTableWord nbits w = some i) :
    step (s.withFetchWord nbits w) = exec i (s.withFetchWord nbits w) := by
  have hrun : (s.withFetchWord nbits w).run = .running := by
    simp only [State.withFetchWord, State.readyToFetch]
    split <;> rfl
  unfold decodeTableWord at h
  split at h
  · next j rest hd =>
    cases h
    rw [step_running _ hrun, fetchInstr_ok.2 ⟨rest, by rw [fetchWindow_withFetchWord]; exact hd⟩]
  · cases h
  · cases h

end Sys2Proof.Machine
end

