-- ==== Sys2Proof/Tests/Slice0.lean ====
section
/-! SUPPORT. The model's own tests: well-formedness, one written-out word for every instruction, single steps taken from
spec/95_test_vectors.md (the vector's name stands at each), and for every obligation that has hypotheses a concrete state and
operands that meet them. -/

namespace Sys2Proof.Tests

open Sys2Proof Sys2Proof.Machine

/-! ### Helpers -/

/-- A running machine with some cells at a pc, all other memory 0. -/
def machineAt (pc : Nat) (cells : List Cell) (regs : List Cell := []) (stack : List Cell := []) : State :=
  { State.reset with
    pc := BitVec.ofNat 16 pc
    mem := memWriteCells [] pc cells
    regs := Vector.ofFn fun r => regs.getD r.val 0
    stack := stack }

/-- A machine made of words holds words. -/
theorem holdsWords_machineAt {pc : Nat} {cells regs stack : List Cell} (hr : ∀ v ∈ regs, v.toNat < 32768)
    (hs : ∀ v ∈ stack, v.toNat < 32768) : HoldsWords (machineAt pc cells regs stack) := by
  refine ⟨fun r => ?_, hs, fun v hv => by cases hv⟩
  have h : readReg (machineAt pc cells regs stack) r = regs.getD r.val 0 := by simp [readReg, machineAt]
  rw [h, List.getD_eq_getElem?_getD]
  cases hi : regs[r.val]? with
  | none => decide
  | some v => exact hr v (List.mem_of_getElem? hi)

/-- The state a result goes on with. -/
def nextOf : Result → Option State
  | .next t => some t
  | .fault _ | .refused _ => none

/-- Some part of the state after one step. -/
def after {α : Type} (s : State) (f : State → α) : Option α := (nextOf (step s)).map f

/-! ### WellFormed: one ill-formed term for each check -/

theorem test_wf_reg_slot_literal : (Instr.set (.literal 5) (.literal 7)).wellFormed = false := by decide
theorem test_wf_reg_slot_invalid : (Instr.pop (.invalid 32776)).wellFormed = false := by decide
theorem test_wf_first_val_slot_invalid : (Instr.jt (.invalid 40000) (.literal 1)).wellFormed = false := by decide
theorem test_wf_second_val_slot_invalid : (Instr.jf (.literal 0) (.invalid 40000)).wellFormed = false := by decide
theorem test_wf_third_slot_invalid : (Instr.add (.register 0) (.literal 1) (.invalid 32776)).wellFormed = false := by decide
theorem test_wf_one_val_slot_invalid : (Instr.push (.invalid 65535)).wellFormed = false := by decide
theorem test_wf_accepts : (Instr.mod (.register 7) (.register 0) (.literal 32767)).wellFormed = true := by decide
theorem test_canonical_refuses : (Instr.push (.invalid 32775)).canonical = false := by decide

/-! ### Decode: a word written out from the spec's encoding (30_encoding.md R65), for every instruction -/

theorem test_decode_halt : decode [0x0000] = .ok .halt [] := by decide
theorem test_decode_set : decode [0x0001, 0x8001, 0x0005] = .ok (.set (.register 1) (.literal 5)) [] := by decide
theorem test_decode_push : decode [0x0002, 0x8000] = .ok (.push (.register 0)) [] := by decide
theorem test_decode_pop : decode [0x0003, 0x8007] = .ok (.pop (.register 7)) [] := by decide
theorem test_decode_eq :
    decode [0x0004, 0x8000, 0x0005, 0x7fff] = .ok (.eq (.register 0) (.literal 5) (.literal 32767)) [] := by decide
theorem test_decode_gt :
    decode [0x0005, 0x8002, 0x8001, 0x0003] = .ok (.gt (.register 2) (.register 1) (.literal 3)) [] := by decide
theorem test_decode_jmp : decode [0x0006, 0x0003, 0x0000] = .ok (.jmp (.literal 3)) [0] := by decide
theorem test_decode_jt : decode [0x0007, 0x8000, 0x0009] = .ok (.jt (.register 0) (.literal 9)) [] := by decide
theorem test_decode_jf : decode [0x0008, 0x0000, 0x8004] = .ok (.jf (.literal 0) (.register 4)) [] := by decide
theorem test_decode_add :
    decode [0x0009, 0x8000, 0x8001, 0x8002] = .ok (.add (.register 0) (.register 1) (.register 2)) [] := by decide
theorem test_decode_mult :
    decode [0x000a, 0x8003, 0x0100, 0x0080] = .ok (.mult (.register 3) (.literal 256) (.literal 128)) [] := by decide
theorem test_decode_mod :
    decode [0x000b, 0x8000, 0x0005, 0x8001] = .ok (.mod (.register 0) (.literal 5) (.register 1)) [] := by decide
theorem test_decode_and :
    decode [0x000c, 0x8005, 0x7fff, 0x5555] = .ok (.and (.register 5) (.literal 32767) (.literal 21845)) [] := by decide
theorem test_decode_or :
    decode [0x000d, 0x8006, 0x5555, 0x2aaa] = .ok (.or (.register 6) (.literal 21845) (.literal 10922)) [] := by decide
theorem test_decode_not : decode [0x000e, 0x8000, 0x0000] = .ok (.not (.register 0) (.literal 0)) [] := by decide
theorem test_decode_rmem : decode [0x000f, 0x8002, 0x0064] = .ok (.rmem (.register 2) (.literal 100)) [] := by decide
theorem test_decode_wmem : decode [0x0010, 0x0064, 0x8000] = .ok (.wmem (.literal 100) (.register 0)) [] := by decide
theorem test_decode_call : decode [0x0011, 0x0004, 0x0000] = .ok (.call (.literal 4)) [0] := by decide
theorem test_decode_ret : decode [0x0012] = .ok .ret [] := by decide
theorem test_decode_out : decode [0x0013, 0x0048] = .ok (.out (.literal 72)) [] := by decide
theorem test_decode_in : decode [0x0014, 0x8000] = .ok (.inp (.register 0)) [] := by decide
theorem test_decode_noop : decode [0x0015, 0x0015] = .ok .noop [21] := by decide
theorem test_decode_unknown : decode [0x0016] = .unknownOpcode 22 ∧ decode [0x8000] = .unknownOpcode 32768 := by decide
theorem test_decode_cut_off : decode [0x0004, 0x0005, 0x0005] = .truncated 3 := by decide

/-- The host's numbering: the first cell is bits 15..0, operand cells that the table gives no bits are 0. -/
theorem test_table_word : decodeTableWord 16 1 = some (.set (.literal 0) (.literal 0)) ∧
    decodeTableWord 48 0x0005_8001_0001 = some (.set (.register 1) (.literal 5)) := by decide

/-- From reset, the placed instruction is the one the next step runs: `out 65` here. -/
theorem test_withFetchWord : after (State.reset.withFetchWord 32 0x0041_0013) (·.output) = some [65] := by decide

/-- The image bytes of 95_test_vectors.md 2.10: low byte first, an odd last byte dropped. -/
theorem test_image_words : imageWords [0x13, 0x00, 0x48, 0x00, 0x00] = [19, 72] ∧ imageWords [0x12, 0x34] = [13330] ∧
    imageWords [0x08, 0x80, 0xff, 0xff] = [32776, 65535] := by decide

/-! ### Single steps -/

/-- V-H1 -/
theorem test_halt : after (machineAt 0 [0]) (fun t => (t.run, t.pc)) = some (.halted, 0) := by decide
/-- V-H4, second step -/
theorem test_noop_last_cell : after (machineAt 32767 [21]) (·.pc) = some 32768 := by decide
/-- V-H4, third step -/
theorem test_fetch_past_last_cell :
    after (machineAt 32768 []) (·.fault) = some (some ⟨.addressOutOfRange, 32768, none, some (.address 32768)⟩) := by decide
/-- V-D1, first step: 32767 is a literal, 32775 is r7 -/
theorem test_set : after (machineAt 0 [1, 32775, 32767]) (fun t => (readReg t 7, t.pc)) = some (32767, 3) := by decide
/-- V-D5: w1 is checked before w2 -/
theorem test_set_operand_order :
    after (machineAt 0 [1, 5, 40000]) (·.fault) = some (some ⟨.expectedRegister, 0, some 1, some (.cell 5)⟩) := by decide
/-- V-S2, first step -/
theorem test_push : after (machineAt 0 [2, 32768] [33] [9]) (·.stack) = some [33, 9] := by decide
/-- V-D2: the smallest invalid value -/
theorem test_push_invalid :
    after (machineAt 0 [2, 32776]) (·.fault) = some (some ⟨.illegalWord, 0, some 2, some (.cell 32776)⟩) := by decide
/-- V-S2, second step -/
theorem test_pop : after (machineAt 2 [3, 32769] [33] [33]) (fun t => (readReg t 1, t.stack)) = some (33, []) := by decide
/-- V-S4: the operand is checked before the stack -/
theorem test_pop_operand_first :
    after (machineAt 0 [3, 5]) (·.fault) = some (some ⟨.expectedRegister, 0, some 3, some (.cell 5)⟩) := by decide
/-- V-C1, third instruction: the destination is written, the old destination kept -/
theorem test_eq : after (machineAt 8 [4, 32770, 32768, 1] [1, 0, 7]) (fun t => (readReg t 2, t.pc)) = some (1, 12) := by decide
/-- V-C1, second instruction -/
theorem test_eq_differ : after (machineAt 4 [4, 32769, 7, 8] [1, 9]) (readReg · 1) = some 0 := by decide
/-- V-C2, first instruction: unsigned -/
theorem test_gt : after (machineAt 0 [5, 32768, 32767, 0]) (readReg · 0) = some 1 := by decide
/-- V-C2, third instruction: strict -/
theorem test_gt_strict : after (machineAt 8 [5, 32770, 5, 5] [1, 0, 9]) (readReg · 2) = some 0 := by decide
/-- V-J5, second step -/
theorem test_jmp : after (machineAt 3 [6, 32768] [6]) (·.pc) = some 6 := by decide
/-- V-J12: the last two cells -/
theorem test_jmp_last_cells : after (machineAt 32766 [6, 2]) (·.pc) = some 2 := by decide
/-- V-J1 -/
theorem test_jt_taken : after (machineAt 0 [7, 1, 4]) (·.pc) = some 4 := by decide
/-- V-D11: the target is checked though the jump is not taken -/
theorem test_jt_checks_target :
    after (machineAt 0 [7, 0, 40000]) (·.fault) = some (some ⟨.illegalWord, 0, some 7, some (.cell 40000)⟩) := by decide
/-- V-J2 -/
theorem test_jf_taken : after (machineAt 0 [8, 0, 4]) (·.pc) = some 4 := by decide
/-- V-J4 -/
theorem test_jf_not_taken : after (machineAt 0 [8, 5, 6]) (·.pc) = some 3 := by decide
/-- V-J6: the register is a target, the return address is pc + 2 -/
theorem test_call : after (machineAt 3 [17, 32768] [6]) (fun t => (t.stack, t.pc)) = some ([5], 6) := by decide
/-- V-J11: a return address that is no word; nothing is pushed -/
theorem test_call_last_cells : after (machineAt 32766 [17, 5]) (fun t => (t.stack, t.fault)) =
    some ([], some ⟨.addressOutOfRange, 32766, some 17, some (.address 32768)⟩) := by decide
/-- V-J7 -/
theorem test_ret : after (machineAt 2 [18] [] [4]) (fun t => (t.stack, t.pc)) = some ([], 4) := by decide
/-- V-J8 -/
theorem test_ret_empty : after (machineAt 0 [18]) (·.fault) = some (some ⟨.stackUnderflow, 0, some 18, none⟩) := by decide
/-- V-D13: sources are read before the write -/
theorem test_add : after (machineAt 0 [9, 32768, 32768, 32768] [20000]) (readReg · 0) = some 7232 := by decide
/-- 1.2: wraps -/
theorem test_add_wraps : after (machineAt 0 [9, 32768, 32767, 1]) (fun t => (readReg t 0, t.pc)) = some (0, 4) := by decide
/-- 1.2 -/
theorem test_mult : after (machineAt 0 [10, 32768, 32767, 32767]) (readReg · 0) = some 1 := by decide
/-- V-A2: the square of 181 -/
theorem test_mult_large : after (machineAt 0 [10, 32770, 181, 181]) (readReg · 2) = some 32761 := by decide
/-- V-A3: which source is the divisor -/
theorem test_mod : after (machineAt 0 [11, 32770, 7, 32767]) (readReg · 2) = some 7 := by decide
/-- V-A5: the record holds the register cell the divisor came from -/
theorem test_mod_zero : after (machineAt 0 [11, 32768, 5, 32769]) (·.fault) =
    some (some ⟨.divisionByZero, 0, some 11, some (.cell 32769)⟩) := by decide
/-- V-A6 -/
theorem test_and : after (machineAt 0 [12, 32768, 32767, 21845]) (readReg · 0) = some 21845 := by decide
/-- V-A6 -/
theorem test_or : after (machineAt 0 [13, 32769, 21845, 10922]) (readReg · 1) = some 32767 := by decide
/-- V-A7 -/
theorem test_not : after (machineAt 0 [14, 32770, 21845]) (fun t => (readReg t 2, t.pc)) = some (10922, 3) := by decide
/-- V-A7 -/
theorem test_not_zero : after (machineAt 0 [14, 32768, 0]) (readReg · 0) = some 32767 := by decide
/-- V-M2: the address comes from the old destination -/
theorem test_rmem : after (machineAt 0 [15, 32768, 32768, 0, 77] [4]) (readReg · 0) = some 77 := by decide
/-- V-M3: the cell is not resolved -/
theorem test_rmem_high : after (machineAt 0 [15, 32768, 3, 32769] [0, 9]) (·.fault) =
    some (some ⟨.rawWordOutOfRange, 0, some 15, some (.cell 32769)⟩) := by decide
/-- V-M6: address and value from one register -/
theorem test_wmem :
    after (machineAt 3 [16, 32768, 32768, 0, 0, 5] [8]) (fun t => (memRead t.mem 8, memRead t.mem 7, t.pc)) = some (8, 0, 6) := by decide
/-- V-M5: the content of the register is stored, not its cell -/
theorem test_wmem_content : after (machineAt 3 [16, 10, 32769] [0, 9]) (fun t => memRead t.mem 10) = some 9 := by decide
/-- V-I1: the code 300 is recorded as 300 -/
theorem test_out : after (machineAt 7 [19, 32768] [300]) (fun t => (t.output, t.pc)) = some ([300], 9) := by decide
/-- V-I2: the failed write -/
theorem test_out_failed :
    after { machineAt 2 [19, 66] with output := [65], env := { Env.initial with writesLeft := some 0 } }
      (fun t => (t.output, t.fault)) =
    some ([65], some ⟨.ioError .outputWriteFailure, 2, some 19, none⟩) := by decide
/-- V-I3, third step: the buffer is refilled with one line -/
theorem test_in : after { machineAt 4 [20, 32770] with env := { Env.initial with answers := [.line [98, 10], .endOfFile] } }
      (fun t => (readReg t 2, t.inbuf, t.env.answers)) = some (98, [10], [.endOfFile]) := by decide
/-- V-I6: the host is not asked -/
theorem test_in_operand_first :
    after { machineAt 0 [20, 100] with env := { Env.initial with answers := [.line [122, 122, 10]] } }
      (fun t => (t.fault, t.env.answers)) =
    some (some ⟨.expectedRegister, 0, some 20, some (.cell 100)⟩, [.line [122, 122, 10]]) := by decide
/-! ### Witnesses: for every obligation with hypotheses, a concrete case that meets them together, clause by clause -/

/-- A machine whose host fails the next write, or accepts a given number of them first. -/
def withWrites (s : State) (n : Option Nat) : State := { s with env := { s.env with writesLeft := n } }

/-- A machine whose host has a free answer for request `n` and all after it. -/
def withFreeHost (s : State) (n : Nat) : State := { s with env := { s.env with later := .free n } }

/-- A machine with answers of the host to come. -/
def withAnswers (s : State) (l : List HostAnswer) : State := { s with env := { s.env with answers := l } }

/-- A machine with BEYOND_IMAGE = fault and an image of `n` words. -/
def withImage (s : State) (n : Nat) : State := { s with env := { s.env with beyondImage := .fault n } }

/-- A machine with RMEM_HIGH = raw16. -/
def withRaw16 (s : State) : State := { s with env := { s.env with rmemHigh := .raw16 } }

/-- A machine with RET_EMPTY = halt. -/
def withRetHalt (s : State) : State := { s with env := { s.env with retEmpty := .halt } }

/-- ClassifyGivesThreeVerdicts: each class at both ends of its range. -/
theorem witness_classify : ((0 : Cell).toNat < 32768 ∧ (32767 : Cell).toNat < 32768) ∧
    (32768 ≤ (32768 : Cell).toNat ∧ (32768 : Cell).toNat < 32776) ∧
    (32768 ≤ (32775 : Cell).toNat ∧ (32775 : Cell).toNat < 32776) ∧
    32776 ≤ (32776 : Cell).toNat ∧ 32776 ≤ (65535 : Cell).toNat := by decide

/-- DecodeOfEncodeIsTheInstruction: a well-formed instruction, and a canonical one that is not. -/
theorem witness_decodeOfEncode : (Instr.set (.register 7) (.literal 32767)).wellFormed = true ∧
    (Instr.set (.literal 0) (.invalid 32776)).canonical = true ∧
    (Instr.set (.literal 0) (.invalid 32776)).wellFormed = false := by decide

/-- EncodeOfDecodeIsTheCells -/
theorem witness_encodeOfDecode :
    decode [16, 65535, 32768, 7] = .ok (.wmem (.invalid 65535) (.register 0)) [7] := by decide

/-- LengthIsFixedByTheOpcode: enough operand cells, one too few, none needed. -/
theorem witness_length : ((9 : Cell).toNat < 22 ∧ operandCount (9 : Cell).toNat ≤ [32768, 1, 1].length) ∧
    ((9 : Cell).toNat < 22 ∧ [32768, 1].length < operandCount (9 : Cell).toNat) ∧
    ((21 : Cell).toNat < 22 ∧ operandCount (21 : Cell).toNat ≤ ([] : List Cell).length) := by decide

/-- UnknownOpcodeFaults: both ends of the range, V-D8 and V-D10. -/
theorem witness_unknownOpcode : (FindsOpcode (machineAt 0 [22]) 22 ∧ 22 ≤ (22 : Cell).toNat) ∧
    (FindsOpcode (machineAt 32767 [65535]) 65535 ∧ 22 ≤ (65535 : Cell).toNat) := by
  unfold FindsOpcode; decide

/-- ResolveIsOneLevelDeep and AsRegDemandsARegister: each clause at the ends of its range. -/
theorem witness_operandCells : ((0 : Cell).toNat < 32768 ∧ (32767 : Cell).toNat < 32768) ∧
    ((32768 : Cell).toNat = 32768 + (0 : RegIx).val ∧ (32775 : Cell).toNat = 32768 + (7 : RegIx).val) ∧
    (32776 ≤ (32776 : Cell).toNat ∧ 32776 ≤ (65535 : Cell).toNat) := by decide

/-- OperandFaultsAreExactlyIllFormed: a running machine; an instruction of either kind. -/
theorem witness_operandFaults : State.reset.run = .running ∧ (Instr.set (.literal 5) (.literal 7)).wellFormed = false ∧
    (Instr.set (.register 0) (.literal 7)).wellFormed = true := by decide

/-- StepRunsTheDecodedInstruction: at the bottom and at the very top of memory. -/
theorem witness_stepRuns : ((machineAt 0 [3, 5]).run = .running ∧
      decode (fetchWindow (machineAt 0 [3, 5])) = .ok (.pop (.literal 5)) [0, 0]) ∧
    ((machineAt 32766 [6, 2]).run = .running ∧
      decode (fetchWindow (machineAt 32766 [6, 2])) = .ok (.jmp (.literal 2)) []) := by decide

/-- FetchWindowIsMemoryAtPc: the last cell of a window, there and not there. -/
theorem witness_fetchWindow : (3 < 4 ∧ (machineAt 32764 []).pc.toNat + 3 < memBound (machineAt 32764 []).env) ∧
    (3 < 4 ∧ ¬ (machineAt 32765 []).pc.toNat + 3 < memBound (machineAt 32765 []).env) := by decide

/-- FetchPastTheLastCellFaults: the bounds. -/
theorem witness_memBound : Env.initial.beyondImage = .zero ∧
    ((withImage State.reset 0).env.beyondImage = .fault 0 ∧ 0 ≤ 32768) ∧
    ((withImage State.reset 32768).env.beyondImage = .fault 32768 ∧ 32768 ≤ 32768) := by decide

/-- FetchPastTheLastCellFaults: the opcode cell missing, at 32768 and just past an image of 3 words. -/
theorem witness_fetchPast : ((machineAt 32768 []).run = .running ∧
      memBound (machineAt 32768 []).env ≤ (machineAt 32768 []).pc.toNat) ∧
    ((withImage (machineAt 3 []) 3).run = .running ∧
      memBound (withImage (machineAt 3 []) 3).env ≤ (withImage (machineAt 3 []) 3).pc.toNat) := by decide

/-- CutOffFaults, for every opcode and each number of operand cells: every operand cell missing. -/
theorem witness_cutOff (op : Cell) : FindsOpcode (machineAt 32767 [op]) op ∧
    memBound (machineAt 32767 [op]).env ≤ (machineAt 32767 [op]).pc.toNat + 1 ∧
    memBound (machineAt 32767 [op]).env ≤ (machineAt 32767 [op]).pc.toNat + 3 := by
  have hp : (machineAt 32767 [op]).pc.toNat = 32767 := rfl
  have hb : memBound (machineAt 32767 [op]).env = 32768 := rfl
  have hm : memRead (machineAt 32767 [op]).mem 32767 = op := by
    rw [machineAt, memRead_memWriteCells _ _ _ _ (Nat.le_refl _)]; simp
  exact ⟨⟨rfl, by omega, by rw [hp, hm]⟩, by omega, by omega⟩

/-- CutOffFaults: only the last of two and of three operand cells missing (V-T1, V-T2), and an image that ends so. -/
theorem witness_cutOff_last : (FindsOpcode (machineAt 32766 [1, 32768]) 1 ∧
      memBound (machineAt 32766 [1, 32768]).env ≤ (machineAt 32766 [1, 32768]).pc.toNat + operandCount 1) ∧
    (FindsOpcode (machineAt 32765 [4, 5, 5]) 4 ∧
      memBound (machineAt 32765 [4, 5, 5]).env ≤ (machineAt 32765 [4, 5, 5]).pc.toNat + operandCount 4) ∧
    (FindsOpcode (withImage (machineAt 0 [19]) 1) 19 ∧
      memBound (withImage (machineAt 0 [19]) 1).env ≤ (withImage (machineAt 0 [19]) 1).pc.toNat + operandCount 19) := by
  unfold FindsOpcode; decide

/-- StoppedMachineTakesNoStep: a halted state and a faulted one that are reached, and a step that is taken. -/
theorem witness_stopped : after (machineAt 0 [0]) (·.run) = some .halted ∧ after (machineAt 0 [22]) (·.run) = some .faulted ∧
    after (machineAt 0 [21]) (·.run) = some .running := by decide

/-- RunningMachineAlwaysSteps -/
theorem witness_running : State.reset.run = .running := rfl

/-- FatalErrorsArePrecise: faults with and without an opcode cell. -/
theorem witness_fatalErrors :
    (∃ t, step (machineAt 0 [11, 32768, 5, 0]) = .next t ∧ t.run = .faulted) ∧
    (∃ t, step (machineAt 32768 []) = .next t ∧ t.run = .faulted) := ⟨⟨_, rfl, rfl⟩, ⟨_, rfl, rfl⟩⟩

/-- FaultMatrixIsClosed, first and second clause: the return address of a call at 32766. -/
theorem witness_faultMatrix_fetched :
    (∃ t f, step (machineAt 32766 [17, 5]) = .next t ∧ t.run = .faulted ∧ t.fault = some f ∧ f.kind = .addressOutOfRange) ∧
    decode (fetchWindow (machineAt 32766 [17, 5])) = .ok (.call (.literal 5)) [] ∧
    (machineAt 32766 [17, 5]).env.beyondImage = .zero := ⟨⟨_, _, rfl, rfl, rfl, rfl⟩, by decide, rfl⟩

/-- FaultMatrixIsClosed, third clause: a fetch that raises. -/
theorem witness_faultMatrix_fetch :
    (∃ t f, step (machineAt 0 [22]) = .next t ∧ t.run = .faulted ∧ t.fault = some f) ∧
    ∀ i rest, decode (fetchWindow (machineAt 0 [22])) ≠ .ok i rest :=
  ⟨⟨_, _, rfl, rfl, rfl⟩, fun i rest h => by
    have e : decode (fetchWindow (machineAt 0 [22])) = .unknownOpcode 22 := by decide
    rw [e] at h; cases h⟩

/-- HaltEndsTheRunCleanly: `halt` at 0 and in the last cell (V-H5). -/
theorem witness_halt : FindsOpcode (machineAt 0 [0]) 0 ∧ FindsOpcode (machineAt 32767 []) 0 := by unfold FindsOpcode; decide

/-- NoopOnlyAdvances: `noop` in the last cell. -/
theorem witness_noop : FindsOpcode (machineAt 32767 [21]) 21 ∧ (machineAt 32767 [21]).pc.toNat = 32767 := by
  unfold FindsOpcode; decide

/-- The source operands that the statements of set, push, jmp, not, rmem, call, out, PopUndoesPush assume: a literal at either end, a
register at either end of its range, all words; and with RMEM_HIGH = raw16 a register that holds none. -/
theorem witness_oneSource : resolve State.reset (.literal 0) = .ok 0 ∧
    (resolve State.reset (.literal 32767) = .ok 32767 ∧ (32767 : Cell).toNat < 32768) ∧
    resolve (machineAt 0 [] [33]) (.register 0) = .ok 33 ∧
    resolve (machineAt 0 [] [0, 0, 0, 0, 0, 0, 0, 32767]) (.register 7) = .ok 32767 ∧
    resolve (withRaw16 (machineAt 0 [] [32769])) (.register 0) = .ok 32769 := ⟨rfl, ⟨rfl, by decide⟩, rfl, rfl, rfl⟩

/-- WordsAreUsedAsTheyAre: a state whose registers and stack hold words, the greatest among them. -/
theorem witness_holdsWords : HoldsWords (machineAt 0 [] [32767] [32767]) ∧
    resolve (machineAt 0 [] [32767] [32767]) (.register 0) = .ok 32767 ∧ (32767 : Cell).toNat < 32768 :=
  ⟨holdsWords_machineAt (by simp) (by simp), rfl, by decide⟩

/-- The two source operands that the statements of eq, gt, jt, jf, add, mult, and, or assume, and those of the clauses of the
format shapes that need a first source: equal and different, zero and not. -/
theorem witness_twoSources :
    (resolve (machineAt 0 [] [7, 8]) (.register 0) = .ok 7 ∧ resolve (machineAt 0 [] [7, 8]) (.literal 7) = .ok 7) ∧
    (resolve (machineAt 0 [] [7, 8]) (.literal 32767) = .ok 32767 ∧ resolve (machineAt 0 [] [7, 8]) (.register 1) = .ok 8) ∧
    (resolve State.reset (.register 3) = .ok 0 ∧ (0 : Cell).toNat = 0) ∧ (1 : Cell).toNat ≠ 0 :=
  ⟨⟨rfl, rfl⟩, ⟨rfl, rfl⟩, ⟨rfl, rfl⟩, by decide⟩

/-- PopTakesTheTopEntry: a stack of one entry, and an empty one. -/
theorem witness_pop : (machineAt 0 [] [] [33]).stack = 33 :: [] ∧ State.reset.stack = [] := ⟨rfl, rfl⟩

/-- ModIsTheRemainder: the least and the greatest divisor, and divisor 0, literal and from a register. -/
theorem witness_mod : (resolve State.reset (.literal 32767) = .ok 32767 ∧ resolve State.reset (.literal 1) = .ok 1 ∧
      (1 : Cell).toNat ≠ 0 ∧ (32767 : Cell).toNat ≠ 0) ∧
    (resolve State.reset (.literal 0) = .ok 0 ∧ resolve State.reset (.register 1) = .ok 0 ∧ (0 : Cell).toNat = 0) :=
  ⟨⟨rfl, rfl, by decide, by decide⟩, rfl, rfl, rfl⟩

/-- CallPushesAndJumps and RetReturnsAfterTheCall: the last return address that is a word, and the first that is none. -/
theorem witness_call : (resolve (machineAt 32765 []) (.literal 32767) = .ok 32767 ∧
      (machineAt 32765 []).pc.toNat + 2 < 32768) ∧
    (resolve (machineAt 32766 []) (.literal 5) = .ok 5 ∧ 32768 ≤ (machineAt 32766 []).pc.toNat + 2) :=
  ⟨⟨rfl, by decide⟩, rfl, by decide⟩

/-- RetPopsIntoPc: an entry to pop, a word, and the empty stack under each RET_EMPTY. -/
theorem witness_ret : (machineAt 0 [] [] [4, 5]).stack = 4 :: [5] ∧ (4 : Cell).toNat < 32768 ∧
    (State.reset.stack = [] ∧ State.reset.env.retEmpty = .fault) ∧
    ((withRetHalt State.reset).stack = [] ∧ (withRetHalt State.reset).env.retEmpty = .halt) :=
  ⟨rfl, by decide, ⟨rfl, rfl⟩, rfl, rfl⟩

/-- The data addresses of rmem and wmem: a literal, a register. -/
theorem witness_dataAddress : DataAddress State.reset (.literal 32767) 32767 ∧
    DataAddress (machineAt 0 [] [3]) (.register 0) 3 := ⟨⟨32767, rfl, by decide⟩, ⟨3, rfl, by decide⟩⟩

/-- RmemLoadsTheRawCell: the last cell and its greatest word, the least cell that is no word under each RMEM_HIGH, and the first
address past an image. -/
theorem witness_rmem :
    (DataAddress (machineAt 32767 [32767]) (.literal 32767) 32767 ∧
      (32767 : Cell).toNat < memBound (machineAt 32767 [32767]).env ∧
      (memRead (machineAt 32767 [32767]).mem (32767 : Cell).toNat).toNat < 32768) ∧
    (DataAddress (machineAt 3 [32768]) (.literal 3) 3 ∧ (3 : Cell).toNat < memBound (machineAt 3 [32768]).env ∧
      32768 ≤ (memRead (machineAt 3 [32768]).mem (3 : Cell).toNat).toNat ∧
      (machineAt 3 [32768]).env.rmemHigh = .fault) ∧
    (withRaw16 (machineAt 3 [32768])).env.rmemHigh = .raw16 ∧
    (DataAddress (withImage State.reset 3) (.literal 3) 3 ∧
      memBound (withImage State.reset 3).env ≤ (3 : Cell).toNat) :=
  ⟨⟨⟨_, rfl, by decide⟩, by decide, by decide⟩, ⟨⟨_, rfl, by decide⟩, by decide, by decide, rfl⟩, rfl,
    ⟨_, rfl, by decide⟩, by decide⟩

/-- V-M3 with RMEM_HIGH = raw16: the register receives the raw cell. -/
theorem witness_rmem_raw16 : after (withRaw16 (machineAt 0 [15, 32768, 3, 32769] [0, 9]))
    (fun t => (readReg t 0, t.pc, t.fault)) = some (32769, 3, none) := by decide

/-- WmemStoresTheWord: the last cell, and the first address past an image. -/
theorem witness_wmem :
    (DataAddress State.reset (.literal 32767) 32767 ∧ resolve State.reset (.register 0) = .ok 0 ∧
      (32767 : Cell).toNat < memBound State.reset.env ∧ (0 : Cell).toNat < 32768) ∧
    (DataAddress (withImage State.reset 3) (.literal 3) 3 ∧ resolve (withImage State.reset 3) (.literal 7) = .ok 7 ∧
      memBound (withImage State.reset 3).env ≤ (3 : Cell).toNat) :=
  ⟨⟨⟨_, rfl, by decide⟩, rfl, by decide, by decide⟩, ⟨_, rfl, by decide⟩, rfl, by decide⟩

/-- OutEmitsOneCode: a host that accepts every write, one that accepts one more, one that accepts none; codes about 128. -/
theorem witness_out :
    (resolve State.reset (.literal 300) = .ok 300 ∧ State.reset.env.writesLeft ≠ some 0) ∧
    (resolve (withWrites State.reset (some 1)) (.literal 0) = .ok 0 ∧
      (withWrites State.reset (some 1)).env.writesLeft ≠ some 0) ∧
    (resolve (withWrites State.reset (some 0)) (.literal 66) = .ok 66 ∧
      (withWrites State.reset (some 0)).env.writesLeft = some 0) ∧
    (127 : Cell).toNat < 128 :=
  ⟨⟨rfl, by decide⟩, ⟨rfl, by decide⟩, ⟨rfl, rfl⟩, by decide⟩

/-- InDeliversOneCode and NextInputTouchesTheHostOnlyWhenEmpty: a code in the buffer; a line to come; end-of-file, as such and
as a line of no characters; a silent host. -/
theorem witness_in :
    ({ State.reset with inbuf := [10] }).inbuf = (10 : Word) :: [] ∧
    ((withAnswers State.reset [.line [98, 10], .endOfFile]).inbuf = [] ∧
      nextAnswer (withAnswers State.reset [.line [98, 10], .endOfFile]).env =
        some (.line (98 :: [10]), (withAnswers State.reset [.endOfFile]).env)) ∧
    ((withAnswers State.reset [.endOfFile]).inbuf = [] ∧
      nextAnswer (withAnswers State.reset [.endOfFile]).env = some (.endOfFile, State.reset.env)) ∧
    ((withAnswers State.reset [.line []]).inbuf = [] ∧
      nextAnswer (withAnswers State.reset [.line []]).env = some (.line [], State.reset.env)) ∧
    (State.reset.inbuf = [] ∧ nextAnswer State.reset.env = none) :=
  ⟨rfl, ⟨rfl, rfl⟩, ⟨rfl, rfl⟩, ⟨rfl, rfl⟩, rfl, rfl⟩

/-- AnswersInOrder: an answer listed, none to come, free ones to come. -/
theorem witness_answers : (withAnswers State.reset [.endOfFile]).env.answers = .endOfFile :: [] ∧
    (State.reset.env.answers = [] ∧ State.reset.env.later = .silent) ∧
    (withFreeHost State.reset 7).env.answers = [] ∧ (withFreeHost State.reset 7).env.later = .free 7 :=
  ⟨rfl, ⟨rfl, rfl⟩, rfl, rfl⟩

/-- A host with free answers: what `in` receives at request 7, and that request 8 follows a line. -/
theorem test_in_free : nextInput (withFreeHost State.reset 7) =
    match Config.hostLine 7 with
    | none => .waiting
    | some [] => .endOfFile
    | some (c :: rest) => .code c { withFreeHost State.reset 8 with inbuf := rest } := by
  cases h : Config.hostLine 7 with
  | none => simp [nextInput, nextAnswer, withFreeHost, State.reset, Env.initial, h]
  | some codes => cases codes <;> simp [nextInput, nextAnswer, withFreeHost, State.reset, Env.initial, h]

/-- OnlyTheDestinationIsWritten: a step that writes r0, seen from r7. -/
theorem witness_destination : (∃ t, exec (.set (.register 0) (.literal 5)) State.reset = .next t) ∧
    destination (.set (.register 0) (.literal 5)) ≠ some (.register 7) := ⟨⟨_, rfl⟩, by decide⟩

/-- OnlyRmemAndWmemReachMemory: an instruction that is neither; `rmem`, which writes no memory, and two memories that agree on the one
cell it reads; `wmem` to the last cell. -/
theorem witness_memory :
    ((∃ t, exec (.push (.literal 5)) State.reset = .next t) ∧ (∀ a b, Instr.push (.literal 5) ≠ .wmem a b) ∧
      ∀ a b, Instr.push (.literal 5) ≠ .rmem a b) ∧
    ((∃ t, exec (.rmem (.register 0) (.literal 5)) State.reset = .next t) ∧
      ∀ a b, Instr.rmem (.register 0) (.literal 5) ≠ .wmem a b) ∧
    (∀ ea, DataAddress (machineAt 4 [7, 5, 7]) (.literal 5) ea →
      memRead (memWriteCells [] 5 [5, 9]) ea.toNat = memRead (machineAt 4 [7, 5, 7]).mem ea.toNat) ∧
    ((∃ t, exec (.wmem (.literal 32767) (.literal 1)) State.reset = .next t) ∧
      DataAddress State.reset (.literal 32767) 32767) := by
  refine ⟨⟨⟨_, rfl⟩, ?_, ?_⟩, ⟨⟨_, rfl⟩, ?_⟩, ?_, ⟨_, rfl⟩, ⟨_, rfl, by decide⟩⟩
  · intro a b h; cases h
  · intro a b h; cases h
  · intro a b h; cases h
  · rintro ea ⟨x, hx, rfl⟩; cases hx; decide

/-- StackIsLastInFirstOut: an instruction of each of its three cases. -/
theorem witness_stack : (∃ t, exec .noop State.reset = .next t) ∧ (∃ t, exec (.push (.literal 5)) State.reset = .next t) ∧
    (∃ t, exec .ret (machineAt 0 [] [] [4]) = .next t) := ⟨⟨_, rfl⟩, ⟨_, rfl⟩, ⟨_, rfl⟩⟩

/-- OnlyInReachesTheInput -/
theorem witness_input : ∀ a, Instr.out (.literal 65) ≠ .inp a := fun _ h => by cases h

/-- OutputOnlyGrowsByOut -/
theorem witness_output : ∃ t, exec (.out (.literal 65)) State.reset = .next t ∧ t.output = [65] := ⟨_, rfl, rfl⟩

/-- ParametersNeverChange: a step that uses up an answer of the host. -/
theorem witness_parameters :
    ∃ t, step (withAnswers (machineAt 0 [20, 32768]) [.line [97, 10]]) = .next t ∧ t.env.answers = [] := ⟨_, rfl, rfl⟩

/-- FallThroughNeverWraps: `out` in the last two cells falls through to 32768 (V-T3). -/
theorem witness_fallThrough :
    decode (fetchWindow (machineAt 32766 [19, 65])) = .ok (.out (.literal 65)) [] ∧
    (∃ t, exec (.out (.literal 65)) (machineAt 32766 [19, 65]) = .next t ∧ t ≠ machineAt 32766 [19, 65] ∧
      t.run = .running) ∧
    (∀ a, Instr.out (.literal 65) ≠ .jmp a) ∧ (∀ a, Instr.out (.literal 65) ≠ .call a) ∧
    Instr.out (.literal 65) ≠ .ret ∧ (∀ a b, Instr.out (.literal 65) ≠ .jt a b) ∧
    (∀ a b, Instr.out (.literal 65) ≠ .jf a b) := by
  refine ⟨by decide, ⟨_, rfl, by decide, rfl⟩, ?_, ?_, ?_, ?_, ?_⟩ <;> intros <;> intro h <;> cases h

/-- FallThroughNeverWraps: `jt 0 6` and `jf 5 6` that are not taken, in the last three cells (V-J3, V-J4). -/
theorem witness_fallThrough_notTaken :
    (decode (fetchWindow (machineAt 32765 [7, 0, 6])) = .ok (.jt (.literal 0) (.literal 6)) [] ∧
      (∃ t, exec (.jt (.literal 0) (.literal 6)) (machineAt 32765 [7, 0, 6]) = .next t ∧ t ≠ machineAt 32765 [7, 0, 6] ∧
        t.run = .running) ∧
      ∀ a b x, Instr.jt (.literal 0) (.literal 6) = .jt a b → resolve (machineAt 32765 [7, 0, 6]) a = .ok x → x.toNat = 0) ∧
    (decode (fetchWindow (machineAt 32765 [8, 5, 6])) = .ok (.jf (.literal 5) (.literal 6)) [] ∧
      (∃ t, exec (.jf (.literal 5) (.literal 6)) (machineAt 32765 [8, 5, 6]) = .next t ∧ t ≠ machineAt 32765 [8, 5, 6] ∧
        t.run = .running) ∧
      ∀ a b x, Instr.jf (.literal 5) (.literal 6) = .jf a b → resolve (machineAt 32765 [8, 5, 6]) a = .ok x →
        x.toNat ≠ 0) := by
  refine ⟨⟨by decide, ⟨_, rfl, by decide, rfl⟩, ?_⟩, by decide, ⟨_, rfl, by decide, rfl⟩, ?_⟩ <;>
    intro a b x h hx <;> cases h <;> cases hx <;> decide

/-- FetchSeesTheLatestStore: V-M7, the store that turns the next opcode into `halt`. -/
theorem witness_fetchAfterStore :
    (DataAddress (machineAt 0 [16, 3, 0, 21]) (.literal 3) 3 ∧
      resolve (machineAt 0 [16, 3, 0, 21]) (.literal 0) = .ok 0 ∧
      (3 : Cell).toNat < memBound (machineAt 0 [16, 3, 0, 21]).env) ∧
    ∃ t u : State, exec (.wmem (.literal 3) (.literal 0)) (machineAt 0 [16, 3, 0, 21]) = .next t ∧ u.mem = t.mem ∧
      u.env.beyondImage = t.env.beyondImage ∧ 0 < 4 ∧ u.pc.toNat + 0 = (3 : Cell).toNat :=
  ⟨⟨⟨_, rfl, by decide⟩, rfl, by decide⟩, _, _, rfl, rfl, rfl, by decide, rfl⟩

/-- RetReturnsAfterTheCall: the state after the call is itself one whose stack the call left. -/
theorem witness_retAfterCall : ∃ t u : State,
    exec (.call (.literal 4)) (machineAt 0 [17, 4]) = .next t ∧ u.stack = t.stack ∧ u.stack = [2] :=
  ⟨_, _, rfl, rfl, rfl⟩

/-- StepKeepsTheInvariant: a step from a state that meets the invariant, under each RMEM_HIGH. -/
theorem witness_invariant : (Machine.Inv (machineAt 32767 [21]) ∧ ∃ t, step (machineAt 32767 [21]) = .next t) ∧
    (Machine.Inv (withRaw16 (machineAt 0 [21] [32769])) ∧ ∃ t, step (withRaw16 (machineAt 0 [21] [32769])) = .next t) := by
  unfold Machine.Inv FaultRecordMatchesRun PcInReach
  exact ⟨⟨⟨by decide, by decide, fun _ => ⟨holdsWords_machineAt (by simp) (by simp), by decide⟩⟩, _, rfl⟩,
    ⟨by decide, by decide, fun h => by cases h⟩, _, rfl⟩

/-- BootMeetsTheInvariant, BootGivesTheResetState: a boot with an image of an odd number of bytes; an index below its words and one past
them; each BEYOND_IMAGE. -/
theorem witness_boot : (∃ t, boot (Vector.replicate 8 9) Env.initial [0x15, 0x00, 0x01] = .next t) ∧
    [0x15, 0x00, (0x01 : Byte)].length ≤ 65537 ∧ 2 * 0 + 1 < [0x15, 0x00, (0x01 : Byte)].length ∧
    [0x15, 0x00, (0x01 : Byte)].length ≤ 2 * 1 + 1 ∧ Env.initial.beyondImage = .zero ∧
    (withImage State.reset 7).env.beyondImage = .fault 7 := ⟨⟨_, rfl⟩, by decide, by decide, by decide, rfl, rfl⟩

/-- BootGivesTheResetState: with BEYOND_IMAGE = fault the bound becomes the length of the image that was loaded, one word here. -/
theorem witness_boot_bound :
    (nextOf (boot (Vector.replicate 8 9) (withImage State.reset 7).env [0x15, 0x00, 0x01])).map
      (fun t => (memBound t.env, readReg t 7)) = some (1, 9) := by decide

/-- HighCellsComeFromTheLoader: a step in a state where a cell holds more than a word, and the registers hold words. -/
theorem witness_highCell : HoldsWords (machineAt 0 [21, 0, 65535]) ∧
    ∃ t, step (machineAt 0 [21, 0, 65535]) = .next t ∧ 32768 ≤ (memRead t.mem 2).toNat :=
  ⟨holdsWords_machineAt (by simp) (by simp), _, rfl, by decide⟩

/-- ImageEdgesAreAsStated: an even image, BEYOND_IMAGE = zero, the shortest image that is refused. -/
theorem witness_imageEdges : ([0x13, (0x00 : Byte)].length % 2 = 0 ∧ ([] : List Byte).length % 2 = 0) ∧
    Env.initial.beyondImage = .zero ∧ 65538 ≤ (List.replicate 65538 (0 : Byte)).length := by
  refine ⟨by decide, rfl, ?_⟩
  rw [List.length_replicate]

/-- ExitStatusFollowsRun: a state of each status. -/
theorem witness_exitStatus : ({ State.reset with run := .halted }).run = .halted ∧
    ({ State.reset with run := .faulted }).run = .faulted ∧ State.reset.run = .running := ⟨rfl, rfl, rfl⟩

end Sys2Proof.Tests
end

section
/-! SUPPORT. How many cells the decoder reads: each operand reader takes its operand cells or names the first missing one, and the
opcode alone selects the reader (30_encoding.md R62, R65). -/

namespace Sys2Proof.Machine

/-- R62 for one answer of the decoder: `n` operand cells are read from `ws` when they are there, and the instruction is one cell
longer; else the first missing cell is named, its offset counted from the opcode cell. -/
def ReadsOperandCells (n : Nat) (ws : List Cell) (d : Decoded) : Prop :=
  (n ≤ ws.length → ∃ i, d = .ok i (ws.drop n) ∧ (encode i).length = 1 + n) ∧
  (ws.length < n → d = .truncated (ws.length + 1))

theorem readsOperandCells_ok {i : Instr} (ws : List Cell) (hlen : (encode i).length = 1) :
    ReadsOperandCells 0 ws (.ok i ws) :=
  ⟨fun _ => ⟨i, rfl, hlen⟩, fun hshort => absurd hshort (Nat.not_lt_zero _)⟩

theorem readsOperandCells_take1 {mk : Operand → Instr} (ws : List Cell) (hlen : ∀ a, (encode (mk a)).length = 2) :
    ReadsOperandCells 1 ws (take1 mk ws) := by
  constructor
  · intro henough
    match ws, henough with
    | a :: _, _ => exact ⟨mk (classify a), rfl, hlen _⟩
  · intro hshort
    obtain rfl := List.length_eq_zero_iff.mp (Nat.lt_one_iff.mp hshort)
    exact take1_nil mk

theorem readsOperandCells_take2 {mk : Operand → Operand → Instr} (ws : List Cell)
    (hlen : ∀ a b, (encode (mk a b)).length = 3) : ReadsOperandCells 2 ws (take2 mk ws) := by
  refine ⟨fun henough => ?_, take2_short mk ws⟩
  match ws, henough with
  | a :: b :: _, _ => exact ⟨mk (classify a) (classify b), rfl, hlen _ _⟩

theorem readsOperandCells_take3 {mk : Operand → Operand → Operand → Instr} (ws : List Cell)
    (hlen : ∀ a b c, (encode (mk a b c)).length = 4) : ReadsOperandCells 3 ws (take3 mk ws) := by
  refine ⟨fun henough => ?_, take3_short mk ws⟩
  match ws, henough with
  | a :: b :: c :: _, _ => exact ⟨mk (classify a) (classify b) (classify c), rfl, hlen _ _ _⟩

/-- The opcodes of the map, grouped by the number of their operands. -/
theorem decodeOp_readsOperandCells (op : Cell) (ws : List Cell) (hop : op.toNat < 22) :
    ReadsOperandCells (operandCount op.toNat) ws (decodeOp op ws) := by
  unfold decodeOp
  generalize op.toNat = n at hop ⊢
  match n, hop with
  | 0, _ | 18, _ | 21, _ => exact readsOperandCells_ok ws rfl
  | 2, _ | 3, _ | 6, _ | 17, _ | 19, _ | 20, _ => exact readsOperandCells_take1 ws fun _ => rfl
  | 1, _ | 7, _ | 8, _ | 14, _ | 15, _ | 16, _ => exact readsOperandCells_take2 ws fun _ _ => rfl
  | 4, _ | 5, _ | 9, _ | 10, _ | 11, _ | 12, _ | 13, _ => exact readsOperandCells_take3 ws fun _ _ _ => rfl
  | n + 22, hn => omega

/-- Settles O5: the opcode selects an operand reader, and each reader takes exactly its operand cells. -/
theorem lengthIsFixedByTheOpcode : Obligations.LengthIsFixedByTheOpcode :=
  fun op ws hop => decodeOp_readsOperandCells op ws hop

end Sys2Proof.Machine
end

section
/-! SUPPORT. The bit patterns of a cell's three ranges, and the verdict of each range as the obligations name it
(30_encoding.md R63; 40_decode_and_dispatch.md R90). -/

namespace Sys2Proof

/-- The literal range is the cells whose bit 15 is 0. -/
theorem getLsbD_fifteen (c : Cell) : c.getLsbD 15 = decide (32768 ≤ c.toNat) :=
  BitVec.msb_eq_getLsbD_last c ▸ BitVec.msb_eq_decide c

/-- Bits 14 to 0 are all of a cell in the literal range. -/
theorem extractLsb'_low15_toNat {c : Cell} (h : c.toNat < 32768) : (c.extractLsb' 0 15).toNat = c.toNat := by
  rw [BitVec.extractLsb'_toNat, Nat.shiftRight_zero]
  exact Nat.mod_eq_of_lt h

/-- Bits 14 to 3 as a number. -/
theorem extractLsb'_mid12_toNat (c : Cell) : (c.extractLsb' 3 12).toNat = c.toNat / 8 % 4096 := by
  rw [BitVec.extractLsb'_toNat, Nat.shiftRight_eq_div_pow]

/-- Bits 2 to 0 as a number. -/
theorem extractLsb'_low3_toNat (c : Cell) : (c.extractLsb' 0 3).toNat = c.toNat % 8 := by
  rw [BitVec.extractLsb'_toNat, Nat.shiftRight_zero]

/-- Among the cells whose bit 15 is 1, the register references are those whose bits 14 to 3 are 0. -/
theorem extractLsb'_mid12_eq_zero_iff {c : Cell} (h : 32768 ≤ c.toNat) : c.extractLsb' 3 12 = 0 ↔ c.toNat < 32776 := by
  have hc : c.toNat < 65536 := c.isLt
  rw [← BitVec.toNat_inj, extractLsb'_mid12_toNat, show (0 : BitVec 12).toNat = 0 from rfl]
  omega

theorem classify_eq_register {c : Cell} {r : RegIx} (h : c.toNat = 32768 + r.val) : classify c = .register r := by
  rw [classify_register c (by omega) (by omega)]
  exact congrArg Operand.register (Fin.ext (by simp only [h]; omega))

/-- The word of a literal cell is held in that cell. -/
theorem cellOfWord_ofNat_toNat {c : Cell} (h : c.toNat < 32768) : cellOfWord (BitVec.ofNat 15 c.toNat) = c := by
  have hcell := cellOf_classify c
  rwa [classify_literal c h] at hcell

/-- Settles O2: the three branches of `classify`, each with the bit pattern of its range. -/
theorem classifyGivesThreeVerdicts : Obligations.ClassifyGivesThreeVerdicts := by
  intro c
  refine ⟨fun hlit => ?_, fun hlo hhi => ?_, fun hinv => ?_⟩
  · have hword := extractLsb'_low15_toNat hlit
    have hbits : BitVec.ofNat 15 c.toNat = c.extractLsb' 0 15 := by rw [← hword, BitVec.ofNat_toNat, BitVec.setWidth_eq]
    exact ⟨(getLsbD_fifteen c).trans (decide_eq_false (by omega)), hbits ▸ classify_literal c hlit, hword⟩
  · refine ⟨(getLsbD_fifteen c).trans (decide_eq_true hlo), (extractLsb'_mid12_eq_zero_iff hlo).2 hhi,
      _, classify_register c hlo hhi, rfl, ?_⟩
    rw [extractLsb'_low3_toNat]
    show c.toNat - 32768 = c.toNat % 8
    omega
  · have hlo : 32768 ≤ c.toNat := by omega
    exact ⟨(getLsbD_fifteen c).trans (decide_eq_true hlo),
      mt (extractLsb'_mid12_eq_zero_iff hlo).1 (by omega), classify_invalid c hinv⟩

end Sys2Proof

namespace Sys2Proof.Machine

/-- Settles O7: the verdict on the cell selects what `resolve` answers; a literal's word is held in the cell itself. -/
theorem resolveIsOneLevelDeep : Obligations.ResolveIsOneLevelDeep := by
  intro s c
  refine ⟨fun hlit => ?_, fun r hreg => ?_, fun hinv => ?_⟩
  · rw [classify_literal c hlit, resolve_literal, cellOfWord_ofNat_toNat hlit]
  · rw [classify_eq_register hreg, resolve_register]
  · rw [classify_invalid c hinv, resolve_invalid, illegalWord]

/-- Settles O9: the verdict on the cell selects what `asReg` answers; the offending cell of a literal is the cell itself. -/
theorem asRegDemandsARegister : Obligations.AsRegDemandsARegister := by
  intro c
  refine ⟨fun r hreg => ?_, fun hlit => ?_, fun hinv => ?_⟩
  · rw [classify_eq_register hreg, asReg_register]
  · rw [classify_literal c hlit, asReg_literal, cellOfWord_ofNat_toNat hlit, expectedRegister]
  · rw [classify_invalid c hinv, asReg_invalid, illegalWord]

end Sys2Proof.Machine
end

section
/-! SUPPORT. What a running machine's step does at pc: it executes the instruction decoded there, and past the last cell it faults
on the fetch (40_decode_and_dispatch.md R93, R98); and `noop`, which does nothing but fall through (41_halt_noop.md R111). -/

namespace Sys2Proof.Machine

/-- A running machine executes the instruction that the cells at pc decode to. -/
theorem step_eq_exec {s : State} {i : Instr} {rest : List Cell} (hrun : s.run = .running)
    (hdec : decode (fetchWindow s) = .ok i rest) : step s = exec i s := by
  rw [step_running s hrun, fetchInstr_ok.2 ⟨rest, hdec⟩]

/-- A fetch past the last cell names pc, and no opcode cell. -/
theorem fetchInstr_past {s : State} (hpast : memBound s.env ≤ s.pc.toNat) :
    fetchInstr s = .raised none { kind := .addressOutOfRange, offending := some (.address s.pc.toNat) } := by
  simp [fetchInstr, fetchWindow_nil s hpast]

/-- A running machine whose pc is past the last cell faults on the fetch of the opcode cell. -/
theorem step_past_faults {s : State} (hrun : s.run = .running) (hpast : memBound s.env ≤ s.pc.toNat) :
    FaultsWith (step s) s .addressOutOfRange none (some (.address s.pc.toNat)) := by
  rw [step_running s hrun, fetchInstr_past hpast]
  rfl

/-- The window of a machine that finds an opcode cell at pc starts with that cell. -/
theorem fetchWindow_of_findsOpcode {s : State} {op : Cell} (h : FindsOpcode s op) :
    fetchWindow s = op :: fetchCells s 3 (s.pc.toNat + 1) := by
  obtain ⟨-, hbound, hcell⟩ := h
  rw [fetchWindow_cons s hbound, hcell]

/-- Falling through changes nothing but pc. -/
theorem sameButPc_advance (s : State) (n : Nat) : SameButPc s (advance s n) :=
  ⟨readReg_advance s n, fun _ => rfl, rfl, ⟨rfl, rfl, rfl⟩, rfl, rfl⟩

/-- Falling through from where the sum fits the 16-bit pointer does not wrap. -/
theorem advance_pc_toNat {s : State} {n : Nat} (hfit : s.pc.toNat + n < 65536) :
    (advance s n).pc.toNat = s.pc.toNat + n := by
  rw [advance_pc, BitVec.toNat_add, BitVec.toNat_ofNat]
  omega

theorem decode_noop (rest : List Cell) : decode (21 :: rest) = .ok .noop rest := rfl

theorem exec_noop (s : State) : exec .noop s = .next (advance s 1) := rfl

theorem step_noop {s : State} (h : FindsOpcode s 21) : step s = .next (advance s 1) := by
  have hdec : decode (fetchWindow s) = .ok .noop (fetchCells s 3 (s.pc.toNat + 1)) := by
    rw [fetchWindow_of_findsOpcode h, decode_noop]
  rw [step_eq_exec h.1 hdec, exec_noop]

/-- Settles O19: `noop` falls through by one cell; from the last cell that leaves a running machine past every bound on memory. -/
theorem noopOnlyAdvances : Obligations.NoopOnlyAdvances := by
  refine ⟨decode_noop, fun s => ⟨advance s 1, exec_noop s, rfl, sameButPc_advance s 1⟩, fun s hfinds hlast => ?_⟩
  have hpc : (advance s 1).pc.toNat = 32768 := by rw [advance_pc_toNat (by omega), hlast]
  have hpast : memBound (advance s 1).env ≤ (advance s 1).pc.toNat := hpc ▸ memBound_le _
  have hfault := step_past_faults (s := advance s 1) hfinds.1 hpast
  rw [hpc] at hfault
  exact ⟨advance s 1, step_noop hfinds, hpc, hfault⟩

end Sys2Proof.Machine
end

section
/-! SUPPORT. An opcode cell outside the map: decoding stops at it, whatever follows, and executing it is the fatal error
UnknownOpcode (40_decode_and_dispatch.md R95; 60_exceptions.md R174). -/

namespace Sys2Proof.Machine

/-- The map ends at 21: above it `decodeOp` reads no operand. -/
theorem decodeOp_unknown {op : Cell} (ws : List Cell) (hop : 22 ≤ op.toNat) : decodeOp op ws = .unknownOpcode op := by
  obtain ⟨n, hn⟩ := Nat.exists_eq_add_of_le' hop
  unfold decodeOp
  rw [hn]
  rfl

theorem decode_unknown {op : Cell} (ws : List Cell) (hop : 22 ≤ op.toNat) : decode (op :: ws) = .unknownOpcode op := by
  rw [decode_cons, decodeOp_unknown ws hop]

/-- An unknown opcode cell is named twice: as the opcode of the fault and as its offending cell. -/
theorem fetchInstr_unknown {s : State} {op : Cell} (hdec : decode (fetchWindow s) = .unknownOpcode op) :
    fetchInstr s = .raised (some op) { kind := .unknownOpcode, offending := some (.cell op) } := by
  rw [fetchInstr, hdec]

/-- Settles O6: the cell at pc heads the fetch window and alone decides what the window decodes to; the fault is then the one that
the fetch raised. -/
theorem unknownOpcodeFaults : Obligations.UnknownOpcodeFaults := by
  refine ⟨fun _ ws hop => decode_unknown ws hop, fun s op hfinds hop => ?_⟩
  have hdec : decode (fetchWindow s) = .unknownOpcode op := by
    rw [fetchWindow_of_findsOpcode hfinds, decode_unknown _ hop]
  rw [step_running s hfinds.1, fetchInstr_unknown hdec]
  rfl

end Sys2Proof.Machine
end

section
/-! SUPPORT. The codec and the decoder undo each other: what is encoded decodes to itself, and what is decoded encodes to the
cells that were read (30_encoding.md sections 1 and 2). -/

namespace Sys2Proof

/-- An instruction is the verdict of some cells exactly when each of its operands is. -/
theorem canonical_iff {i : Instr} : i.canonical = true ↔ ∀ o ∈ i.operands, o.canonical = true := by
  cases i <;> simp [Instr.canonical, Instr.operands, and_assoc]

/-- Whichever kind a slot accepts, an operand it accepts is some cell's verdict. -/
theorem canonical_of_wellFormed {i : Instr} (h : i.wellFormed = true) : i.canonical = true := by
  cases i with
  | halt | ret | noop => rfl
  | pop a | inp a => exact canonical_of_isVal (isVal_of_isReg h)
  | push a | jmp a | call a | out a => exact canonical_of_isVal h
  | set a b | not a b | rmem a b =>
    obtain ⟨ha, hb⟩ := Bool.and_eq_true_iff.1 h
    exact Bool.and_eq_true_iff.2 ⟨canonical_of_isVal (isVal_of_isReg ha), canonical_of_isVal hb⟩
  | jt a b | jf a b | wmem a b =>
    obtain ⟨ha, hb⟩ := Bool.and_eq_true_iff.1 h
    exact Bool.and_eq_true_iff.2 ⟨canonical_of_isVal ha, canonical_of_isVal hb⟩
  | eq a b c | gt a b c | add a b c | mult a b c | mod a b c | and a b c | or a b c =>
    obtain ⟨hab, hc⟩ := Bool.and_eq_true_iff.1 h
    obtain ⟨ha, hb⟩ := Bool.and_eq_true_iff.1 hab
    exact Bool.and_eq_true_iff.2
      ⟨Bool.and_eq_true_iff.2 ⟨canonical_of_isVal (isVal_of_isReg ha), canonical_of_isVal hb⟩, canonical_of_isVal hc⟩

/-- The opcode selects the reader of as many operand cells as were assembled, and each gives its operand back. -/
theorem decode_encode {i : Instr} (rest : List Cell) (hcan : i.canonical = true) :
    decode (encode i ++ rest) = .ok i rest := by
  have hback : ∀ o ∈ i.operands, classify (cellOf o) = o := fun o ho => classify_cellOf o (canonical_iff.1 hcan o ho)
  cases i with
  | halt | ret | noop => rfl
  | push a | pop a | jmp a | call a | out a | inp a =>
    have ha : classify (cellOf a) = a := hback a (by simp [Instr.operands])
    simp [encode, Instr.opcode, Instr.operands, decodeOp, take1, ha]
  | set a b | jt a b | jf a b | not a b | rmem a b | wmem a b =>
    have ha : classify (cellOf a) = a := hback a (by simp [Instr.operands])
    have hb : classify (cellOf b) = b := hback b (by simp [Instr.operands])
    simp [encode, Instr.opcode, Instr.operands, decodeOp, take2, ha, hb]
  | eq a b c | gt a b c | add a b c | mult a b c | mod a b c | and a b c | or a b c =>
    have ha : classify (cellOf a) = a := hback a (by simp [Instr.operands])
    have hb : classify (cellOf b) = b := hback b (by simp [Instr.operands])
    have hc : classify (cellOf c) = c := hback c (by simp [Instr.operands])
    simp [encode, Instr.opcode, Instr.operands, decodeOp, take3, ha, hb, hc]

/-- Settles O3: a well-formed instruction is canonical, and every canonical one survives the encoder and the decoder. -/
theorem decodeOfEncodeIsTheInstruction : Obligations.DecodeOfEncodeIsTheInstruction :=
  ⟨fun _ => canonical_of_wellFormed, fun _ rest => decode_encode rest⟩

/-- An answer of the decoder that keeps every bit of the cells it was read from. -/
def KeepsCells (cs : List Cell) (d : Decoded) : Prop :=
  ∀ i rest, d = .ok i rest → cs = encode i ++ rest ∧ i.canonical = true

theorem keepsCells_ok {op : Cell} {i : Instr} (ws : List Cell) (henc : encode i = [op]) (hcan : i.canonical = true) :
    KeepsCells (op :: ws) (.ok i ws) := by
  intro j rest h
  cases h
  exact ⟨by rw [henc]; rfl, hcan⟩

theorem keepsCells_take1 {op : Cell} {mk : Operand → Instr} (ws : List Cell)
    (henc : ∀ a, encode (mk a) = [op, cellOf a]) (hcan : ∀ a, (mk a).canonical = a.canonical) :
    KeepsCells (op :: ws) (take1 mk ws) := by
  intro i rest h
  obtain ⟨a, rfl, rfl⟩ := take1_ok h
  exact ⟨by simp [henc, cellOf_classify], by simp [hcan, classify_canonical]⟩

theorem keepsCells_take2 {op : Cell} {mk : Operand → Operand → Instr} (ws : List Cell)
    (henc : ∀ a b, encode (mk a b) = [op, cellOf a, cellOf b])
    (hcan : ∀ a b, (mk a b).canonical = (a.canonical && b.canonical)) : KeepsCells (op :: ws) (take2 mk ws) := by
  intro i rest h
  obtain ⟨a, b, rfl, rfl⟩ := take2_ok h
  exact ⟨by simp [henc, cellOf_classify], by simp [hcan, classify_canonical]⟩

theorem keepsCells_take3 {op : Cell} {mk : Operand → Operand → Operand → Instr} (ws : List Cell)
    (henc : ∀ a b c, encode (mk a b c) = [op, cellOf a, cellOf b, cellOf c])
    (hcan : ∀ a b c, (mk a b c).canonical = (a.canonical && b.canonical && c.canonical)) :
    KeepsCells (op :: ws) (take3 mk ws) := by
  intro i rest h
  obtain ⟨a, b, c, rfl, rfl⟩ := take3_ok h
  exact ⟨by simp [henc, cellOf_classify], by simp [hcan, classify_canonical]⟩

/-- The opcodes of the map, grouped by the number of their operands. -/
theorem decodeOp_keepsCells (op : Cell) (ws : List Cell) : KeepsCells (op :: ws) (decodeOp op ws) := by
  have hop : op = BitVec.ofNat 16 op.toNat := by simp
  unfold decodeOp
  generalize op.toNat = n at hop ⊢
  subst hop
  match n with
  | 0 | 18 | 21 => exact keepsCells_ok ws rfl rfl
  | 2 | 3 | 6 | 17 | 19 | 20 => exact keepsCells_take1 ws (fun _ => rfl) (fun _ => rfl)
  | 1 | 7 | 8 | 14 | 15 | 16 => exact keepsCells_take2 ws (fun _ _ => rfl) (fun _ _ => rfl)
  | 4 | 5 | 9 | 10 | 11 | 12 | 13 => exact keepsCells_take3 ws (fun _ _ _ => rfl) (fun _ _ _ => rfl)
  | n + 22 => exact fun _ _ h => nomatch h

/-- What is decoded is encoded as the cells that were read. -/
theorem encode_decode {cs rest : List Cell} {i : Instr} (h : decode cs = .ok i rest) :
    cs = encode i ++ rest ∧ i.canonical = true := by
  cases cs with
  | nil => cases h
  | cons op ws => exact decodeOp_keepsCells op ws i rest h

/-- Settles O4: no reader of operand cells drops a bit, whichever reader the opcode selects. -/
theorem encodeOfDecodeIsTheCells : Obligations.EncodeOfDecodeIsTheCells :=
  fun _ _ _ => encode_decode

/-- Settles O1: each written-out word is small enough to be decoded by evaluation. -/
theorem workedWordsDecode : Obligations.WorkedWordsDecode := by
  unfold Obligations.WorkedWordsDecode
  decide

end Sys2Proof
end

section
/-! SUPPORT. The fetch: what its window holds, what it raises, and where a fetched instruction lies (40_decode_and_dispatch.md
sections 1 to 3; 20_memory.md section 3). -/

namespace Sys2Proof.Machine

/-- Settles O12: `fetchCells` takes cells one after another while they exist. -/
theorem fetchWindowIsMemoryAtPc : Obligations.FetchWindowIsMemoryAtPc := by
  intro s k hk
  split
  · next hin => exact fetchCells_getElem? s 4 s.pc.toNat k hk hin
  · next hout =>
    refine List.getElem?_eq_none ?_
    rw [fetchWindow, fetchCells_length]
    omega

theorem fetchWindow_head? (s : State) :
    (fetchWindow s).head? = if s.pc.toNat < memBound s.env then some (memRead s.mem s.pc.toNat) else none := by
  split
  · next hin => rw [fetchWindow_cons s hin]; rfl
  · next hout => rw [fetchWindow_nil s (Nat.le_of_not_lt hout)]; rfl

/-- The cells of an instruction that was fetched lie in memory. -/
theorem fetched_lt_memBound {s : State} {i : Instr} {rest : List Cell} (h : decode (fetchWindow s) = .ok i rest) :
    s.pc.toNat + operandCount i.opcode.toNat < memBound s.env := by
  have hcells : (fetchWindow s).length = (encode i).length + rest.length := by
    rw [(encode_decode h).1, List.length_append]
  have hlen : (encode i).length = 1 + operandCount i.opcode.toNat := by cases i <;> rfl
  rw [fetchWindow, fetchCells_length] at hcells
  omega

/-- The cell at pc is the opcode cell of the instruction that was fetched. -/
theorem fetchWindow_head?_of_decode {s : State} {i : Instr} {rest : List Cell}
    (h : decode (fetchWindow s) = .ok i rest) : (fetchWindow s).head? = some i.opcode := by
  rw [(encode_decode h).1]; rfl

/-- Only the first cell can be an unknown opcode. -/
theorem head?_of_decode_unknown {cs : List Cell} {op : Cell} (h : decode cs = .unknownOpcode op) : cs.head? = some op := by
  cases cs with
  | nil => cases h
  | cons w ws =>
    rcases Nat.lt_or_ge w.toNat 22 with hknown | hunknown
    · obtain ⟨hlong, hshort⟩ := decodeOp_readsOperandCells w ws hknown
      rcases Nat.lt_or_ge ws.length (operandCount w.toNat) with hlen | hlen
      · rw [decode_cons, hshort hlen] at h; cases h
      · obtain ⟨i, hi, -⟩ := hlong hlen
        rw [decode_cons, hi] at h; cases h
    · rw [decode_unknown ws hunknown] at h; cases h; rfl

/-- A fetch that raises gives no instruction; it raises one of two errors and names the opcode cell if that exists. -/
theorem fetchInstr_raised {s : State} {op : Option Cell} {r : Raised} (h : fetchInstr s = .raised op r) :
    op = (fetchWindow s).head? ∧ (r.kind = .addressOutOfRange ∨ r.kind = .unknownOpcode) ∧
      ∀ i rest, decode (fetchWindow s) ≠ .ok i rest := by
  unfold fetchInstr at h
  split at h
  · cases h
  · next w hd => cases h; exact ⟨(head?_of_decode_unknown hd).symm, .inr rfl, by simp [hd]⟩
  · next k hd => cases h; exact ⟨rfl, .inl rfl, by simp [hd]⟩

theorem fetchInstr_truncated {s : State} {k : Nat} (h : decode (fetchWindow s) = .truncated k) :
    fetchInstr s =
      .raised (fetchWindow s).head? { kind := .addressOutOfRange, offending := some (.address (s.pc.toNat + k)) } := by
  rw [fetchInstr, h]

/-- Of an instruction that is cut off, the window holds all that exists, so the first missing operand cell is at the bound. -/
theorem cutOffFaults {op : Cell} (hop : op.toNat < 22) : CutOffFaults op (operandCount op.toNat) := by
  intro s hfinds hcut
  have hwindow := fetchWindow_of_findsOpcode hfinds
  have hcount : operandCount op.toNat ≤ 3 := by unfold operandCount; split_ifs <;> omega
  have hlen := fetchCells_length s 3 (s.pc.toNat + 1)
  obtain ⟨hrun, hin, -⟩ := hfinds
  have hdec := (decodeOp_readsOperandCells op (fetchCells s 3 (s.pc.toNat + 1)) hop).2 (by omega)
  rw [← decode_cons, ← hwindow] at hdec
  have hmissing : s.pc.toNat + ((fetchCells s 3 (s.pc.toNat + 1)).length + 1) = memBound s.env := by omega
  rw [step_running s hrun, fetchInstr_truncated hdec, hwindow, hmissing]
  rfl

theorem memBound_zero {e : Env} (h : e.beyondImage = .zero) : memBound e = 32768 := by
  rw [memBound, h]; rfl

theorem memBound_fault {e : Env} {n : Nat} (h : e.beyondImage = .fault n) : memBound e = min n 32768 := by
  rw [memBound, h]; rfl

/-- The bound depends on BEYOND_IMAGE only. -/
theorem memBound_congr {e e' : Env} (h : e'.beyondImage = e.beyondImage) : memBound e' = memBound e := by
  rw [memBound, memBound, h]

/-- Settles O13: a fetch with no opcode cell, and one with too few operand cells. -/
theorem fetchPastTheLastCellFaults : Obligations.FetchPastTheLastCellFaults :=
  ⟨fun _ => memBound_zero, fun _ _ hb hn => (memBound_fault hb).trans (Nat.min_eq_left hn),
    fun _ => step_past_faults, fun _ => cutOffFaults⟩

end Sys2Proof.Machine
end

section
/-! SUPPORT. The step and the end of a run: only a running machine steps, and it always does; what each end of a run leaves
(10_state.md section 6; 41_halt_noop.md R110; 50_interfaces.md R164; 60_exceptions.md R170). -/

namespace Sys2Proof.Machine

/-- Settles O11: the step adds nothing around the instruction. -/
theorem stepRunsTheDecodedInstruction : Obligations.StepRunsTheDecodedInstruction :=
  fun _ _ _ => step_eq_exec

theorem step_halted {s : State} (h : s.run = .halted) : step s = .fault .runHalted := by simp only [step, h]

theorem step_faulted {s : State} (h : s.run = .faulted) : step s = .fault .runFaulted := by simp only [step, h]

/-- Settles O14: the two terminal values of RUN, and the inversion of a step. -/
theorem stoppedMachineTakesNoStep : Obligations.StoppedMachineTakesNoStep :=
  ⟨fun _ => step_halted, fun _ => step_faulted, fun _ _ h => (step_cases h).1⟩

/-- Settles O59: one clause for each value of RUN. -/
theorem exitStatusFollowsRun : Obligations.ExitStatusFollowsRun := by
  refine ⟨fun s h => ?_, fun s h => ?_, fun s h => ?_⟩
  · simp only [exitStatus, h]
  · simp only [exitStatus, h]
    exact ⟨_, rfl, Nat.succ_ne_zero _⟩
  · simp only [exitStatus, h]

/-- Settles O60: the table of codes, read off. -/
theorem fatalErrorCodes : Obligations.FatalErrorCodes :=
  ⟨rfl, rfl, rfl, rfl, rfl, fun _ => rfl, rfl, rfl⟩

theorem decode_halt (rest : List Cell) : decode (0 :: rest) = .ok .halt rest := rfl

theorem exec_halt (s : State) : exec .halt s = .next (haltRun s) := rfl

theorem step_halt {s : State} (h : FindsOpcode s 0) : step s = .next (haltRun s) := by
  have hdec : decode (fetchWindow s) = .ok .halt (fetchCells s 3 (s.pc.toNat + 1)) := by
    rw [fetchWindow_of_findsOpcode h, decode_halt]
  rw [step_eq_exec h.1 hdec, exec_halt]

/-- Settles O18: `halt` changes RUN alone, and a halted machine has no step. -/
theorem haltEndsTheRunCleanly : Obligations.HaltEndsTheRunCleanly :=
  ⟨decode_halt, exec_halt, fun s hfinds => ⟨haltRun s, step_halt hfinds, rfl, rfl, rfl, step_halted rfl⟩⟩

end Sys2Proof.Machine
end

section
/-! SUPPORT. What an instruction can do to each field of the state, read off ExecCase once per field. -/

namespace Sys2Proof.Machine

/-- Every branch of every meaning answers a next state. -/
theorem exec_next (i : Instr) (s : State) : ∃ t, exec i s = .next t := by
  cases i with
  | halt | noop => exact ⟨_, rfl⟩
  | set a b | not a b =>
    simp only [exec, execSet, execNot]
    split <;> exact ⟨_, rfl⟩
  | push a | jmp a =>
    simp only [exec, execPush, execJmp]
    split <;> exact ⟨_, rfl⟩
  | jt a b | jf a b =>
    simp only [exec, execJt, execJf]
    split <;> exact ⟨_, rfl⟩
  | eq a b c | gt a b c | add a b c | mult a b c | and a b c | or a b c =>
    simp only [exec, execEq, execGt, execAdd, execMult, execAnd, execOr]
    split <;> exact ⟨_, rfl⟩
  | pop a | mod a b c | rmem a b | wmem a b | call a | out a =>
    simp only [exec, execPop, execMod, execRmem, execWmem, execCall, execOut]
    split
    · exact ⟨_, rfl⟩
    · split <;> exact ⟨_, rfl⟩
  | ret =>
    simp only [exec, execRet, retOnEmpty]
    split
    · split <;> exact ⟨_, rfl⟩
    · exact ⟨_, rfl⟩
  | inp a =>
    simp only [exec, execInp]
    split
    · exact ⟨_, rfl⟩
    · split <;> exact ⟨_, rfl⟩

/-- Settles O15: the fetch raises a fatal error, which is a next state, or an instruction is executed. -/
theorem runningMachineAlwaysSteps : Obligations.RunningMachineAlwaysSteps := by
  refine ⟨exec_next, fun s hrun => ?_⟩
  rw [step_running s hrun]
  cases fetchInstr s with
  | instr i => exact exec_next i s
  | raised op r => exact ⟨_, rfl⟩

section
variable {i : Instr} {s t : State}

/-- RUN and FAULT: a fatal error sets both, the end of the run RUN, anything else neither. -/
theorem ExecCase.run_fault (h : ExecCase i s t) :
    (∃ r, t = faulted s (some i.opcode) r ∧ r.kind ∈ mayRaise i ∧
      (s.env.beyondImage = .zero → HoldsWords s → r.kind = .addressOutOfRange → ∃ a, i = .call a)) ∨
    (t = haltRun s) ∨ SameRun s t := by
  cases h with
  | fatal r ht hk ha => exact .inl ⟨r, ht, hk, ha⟩
  | halt hi ht | retEmpty hi hs ht => exact .inr (.inl ht)
  | out a v u hi hv he ht =>
    obtain ⟨w, rfl⟩ := emitChar_accepted he
    subst ht
    exact .inr (.inr ⟨rfl, rfl⟩)
  | inp d v u hi he ht =>
    obtain ⟨buf, e, rfl, -⟩ := nextInput_code he
    subst ht
    exact .inr (.inr ⟨rfl, rfl⟩)
  | noop _ ht | result _ _ _ _ _ _ _ _ ht | push _ _ _ _ ht | pop _ _ _ _ _ ht | jump _ _ _ ht | notTaken _ ht
  | call _ _ _ _ _ _ ht | ret _ _ _ _ ht | wmem _ _ _ _ _ _ _ _ ht | waits _ _ ht =>
    subst ht
    exact .inr (.inr ⟨rfl, rfl⟩)

/-- A running state becomes faulted by a fatal error only. -/
theorem ExecCase.fatal_of_faulted (h : ExecCase i s t) (hs : s.run = .running) (ht : t.run = .faulted) :
    ∃ r, t = faulted s (some i.opcode) r ∧ r.kind ∈ mayRaise i ∧
      (s.env.beyondImage = .zero → HoldsWords s → r.kind = .addressOutOfRange → ∃ a, i = .call a) := by
  rcases h.run_fault with hfatal | rfl | ⟨hrun, -⟩
  · exact hfatal
  · cases ht
  · rw [ht, hs] at hrun; cases hrun

/-- Memory: only `wmem` changes it, by the one cell it stores. -/
theorem ExecCase.mem (h : ExecCase i s t) :
    t.mem = s.mem ∨
    ∃ a b ea y, i = .wmem a b ∧ DataAddress s a ea ∧ resolve s b = .ok y ∧ ea.toNat < memBound s.env ∧
      t.mem = memWriteCell s.mem ea.toNat (usedAs .stored y) := by
  cases h with
  | wmem a b ea v hi ha hv hb ht =>
    obtain ⟨y, hy, rfl⟩ := hv
    subst ht
    exact .inr ⟨a, b, ea, y, hi, ha, hy, hb, rfl⟩
  | out a v u hi hv he ht =>
    obtain ⟨w, rfl⟩ := emitChar_accepted he
    subst ht
    exact .inl rfl
  | inp d v u hi he ht =>
    obtain ⟨buf, e, rfl, -⟩ := nextInput_code he
    subst ht
    exact .inl rfl
  | fatal _ ht | halt _ ht | noop _ ht | result _ _ _ _ _ _ _ _ ht | push _ _ _ _ ht | pop _ _ _ _ _ ht | jump _ _ _ ht
  | notTaken _ ht | call _ _ _ _ _ _ ht | retEmpty _ _ ht | ret _ _ _ _ ht | waits _ _ ht =>
    subst ht
    exact .inl rfl

/-- Registers: only the destination is written, with a word where words are held. -/
theorem ExecCase.regs (h : ExecCase i s t) :
    (∀ r, readReg t r = readReg s r) ∨
    ∃ d v, destination i = some (.register d) ∧ (s.env.rmemHigh = .fault → HoldsWords s → v.toNat < 32768) ∧
      ∀ r, readReg t r = if r = d then v else readReg s r := by
  cases h with
  | result d v n hi hn hpop hinp hv ht =>
    subst ht
    exact .inr ⟨d, v, hi, hv, fun r => readReg_writeReg s d r v⟩
  | pop d v l hi hs ht =>
    subst hi ht
    exact .inr ⟨d, v, rfl, fun _ hw => (holdsWords_withStack hw hs).1, fun r => readReg_writeReg (withStack s l) d r v⟩
  | out a v u hi hv he ht =>
    obtain ⟨w, rfl⟩ := emitChar_accepted he
    subst ht
    exact .inl fun _ => rfl
  | inp d v u hi he ht =>
    obtain ⟨buf, e, rfl, -⟩ := nextInput_code he
    subst hi ht
    exact .inr ⟨d, cellOfWord v, rfl, fun _ _ => (cellOfWord_toNat v).symm ▸ v.isLt, fun r => readReg_writeReg _ d r _⟩
  | fatal _ ht | halt _ ht | noop _ ht | push _ _ _ _ ht | jump _ _ _ ht | notTaken _ ht | call _ _ _ _ _ _ ht
  | retEmpty _ _ ht | ret _ _ _ _ ht | wmem _ _ _ _ _ _ _ _ ht | waits _ _ ht =>
    subst ht
    exact .inl fun _ => rfl

/-- Stack: `push` and `call` add one entry, a word where words are held; `pop` and `ret` take the top one. -/
theorem ExecCase.stack (h : ExecCase i s t) :
    t.stack = s.stack ∨
    ((∃ a, i = .push a ∨ i = .call a) ∧ ∃ v, t.stack = v :: s.stack ∧ (HoldsWords s → v.toNat < 32768)) ∨
    (((∃ a, i = .pop a) ∨ i = .ret) ∧ ∃ v, s.stack = v :: t.stack) := by
  cases h with
  | push a x hi hx ht =>
    subst ht
    exact .inr (.inl ⟨⟨a, .inl hi⟩, x, rfl, hx⟩)
  | call a back x hi hb hx ht =>
    subst ht
    exact .inr (.inl ⟨⟨a, .inr hi⟩, back, rfl, fun _ => hb⟩)
  | pop d v l hi hs ht =>
    subst ht
    exact .inr (.inr ⟨.inl ⟨_, hi⟩, v, hs⟩)
  | ret x l hi hs ht =>
    subst ht
    exact .inr (.inr ⟨.inr hi, x, hs⟩)
  | out a v u hi hv he ht =>
    obtain ⟨w, rfl⟩ := emitChar_accepted he
    subst ht
    exact .inl rfl
  | inp d v u hi he ht =>
    obtain ⟨buf, e, rfl, -⟩ := nextInput_code he
    subst ht
    exact .inl rfl
  | fatal _ ht | halt _ ht | noop _ ht | result _ _ _ _ _ _ _ _ ht | jump _ _ _ ht | notTaken _ ht | retEmpty _ _ ht
  | wmem _ _ _ _ _ _ _ _ ht | waits _ _ ht =>
    subst ht
    exact .inl rfl

/-- Output: only `out` adds to it, the one code it emits. -/
theorem ExecCase.output (h : ExecCase i s t) :
    t.output = s.output ∨
    ∃ a y, i = .out a ∧ resolve s a = .ok y ∧ t.output = s.output ++ [usedAs .code y] := by
  cases h with
  | out a v u hi hv he ht =>
    obtain ⟨w, rfl⟩ := emitChar_accepted he
    obtain ⟨y, hy, rfl⟩ := hv
    subst ht
    exact .inr ⟨a, y, hi, hy, rfl⟩
  | inp d v u hi he ht =>
    obtain ⟨buf, e, rfl, -⟩ := nextInput_code he
    subst ht
    exact .inl rfl
  | fatal _ ht | halt _ ht | noop _ ht | result _ _ _ _ _ _ _ _ ht | push _ _ _ _ ht | pop _ _ _ _ _ ht | jump _ _ _ ht
  | notTaken _ ht | call _ _ _ _ _ _ ht | retEmpty _ _ ht | ret _ _ _ _ ht | wmem _ _ _ _ _ _ _ _ ht | waits _ _ ht =>
    subst ht
    exact .inl rfl

/-- The parameters: `out` counts a write, `in` may use up an answer of the host, and nothing else changes them. -/
theorem ExecCase.env (h : ExecCase i s t) :
    (∃ w, t.env = { s.env with writesLeft := w }) ∨ ∃ answer, nextAnswer s.env = some (answer, t.env) := by
  cases h with
  | out a v u hi hv he ht =>
    obtain ⟨w, rfl⟩ := emitChar_accepted he
    subst ht
    exact .inl ⟨w, rfl⟩
  | inp d v u hi he ht =>
    obtain ⟨buf, e, rfl, ⟨-, rfl⟩ | ⟨-, hanswer⟩⟩ := nextInput_code he
    · subst ht
      exact .inl ⟨_, rfl⟩
    · subst ht
      exact .inr ⟨_, hanswer⟩
  | fatal _ ht | halt _ ht | noop _ ht | result _ _ _ _ _ _ _ _ ht | push _ _ _ _ ht | pop _ _ _ _ _ ht | jump _ _ _ ht
  | notTaken _ ht | call _ _ _ _ _ _ ht | retEmpty _ _ ht | ret _ _ _ _ ht | wmem _ _ _ _ _ _ _ _ ht | waits _ _ ht =>
    subst ht
    exact .inl ⟨_, rfl⟩

/-- The instruction does not fall through: `jmp`, `call` and `ret`, `jt` and `jf` taken. -/
def Jumps (s : State) (i : Instr) : Prop :=
  (∃ a, i = .jmp a) ∨ (∃ a, i = .call a) ∨ i = .ret ∨
  (∃ a b y, i = .jt a b ∧ resolve s a = .ok y ∧ y.toNat ≠ 0) ∨ (∃ a b y, i = .jf a b ∧ resolve s a = .ok y ∧ y.toNat = 0)

/-- The instruction pointer: kept by what stops the run or waits, set by a jump, to a word where words are held, and else advanced
by the instruction's own length. -/
theorem ExecCase.pc (h : ExecCase i s t) :
    (t.pc = s.pc ∧ (t.run ≠ .running ∨ t = s)) ∨
    (Jumps s i ∧ (HoldsWords s → t.pc.toNat < 32768)) ∨
    t.pc = s.pc + BitVec.ofNat 16 (1 + operandCount i.opcode.toNat) := by
  cases h with
  | fatal _ ht | halt _ ht | retEmpty _ _ ht =>
    subst ht
    exact .inl ⟨rfl, .inl nofun⟩
  | waits a hi ht =>
    subst ht
    exact .inl ⟨rfl, .inr rfl⟩
  | jump x hi hx ht =>
    subst ht
    refine .inr (.inl ⟨?_, hx⟩)
    rcases hi with hjmp | hjt | hjf
    · exact .inl hjmp
    · exact .inr (.inr (.inr (.inl hjt)))
    · exact .inr (.inr (.inr (.inr hjf)))
  | call a back x hi hb hx ht =>
    subst ht
    exact .inr (.inl ⟨.inr (.inl ⟨a, hi⟩), hx⟩)
  | ret x l hi hs ht =>
    subst ht
    exact .inr (.inl ⟨.inr (.inr (.inl hi)), fun hw => usedAs_lt _ (holdsWords_withStack hw hs).1⟩)
  | result d v n hi hn hpop hinp hv ht =>
    subst ht hn
    exact .inr (.inr rfl)
  | notTaken hi ht =>
    subst ht
    rcases hi with ⟨a, b, y, rfl, -, -⟩ | ⟨a, b, y, rfl, -, -⟩ <;> exact .inr (.inr rfl)
  | out a v u hi hv he ht =>
    obtain ⟨w, rfl⟩ := emitChar_accepted he
    subst hi ht
    exact .inr (.inr rfl)
  | inp d v u hi he ht =>
    obtain ⟨buf, e, rfl, -⟩ := nextInput_code he
    subst hi ht
    exact .inr (.inr rfl)
  | noop hi ht | push _ _ hi _ ht | pop _ _ _ hi _ ht | wmem _ _ _ _ hi _ _ _ ht =>
    subst hi ht
    exact .inr (.inr rfl)

end

end Sys2Proof.Machine
end

section
/-! SUPPORT. The rules over all instructions that speak of one field each, and the fatal errors
(10_state.md sections 1, 2 and 4; 20_memory.md section 1; 40_decode_and_dispatch.md section 3; 60_exceptions.md). -/

namespace Sys2Proof.Machine

/-- Settles O16: a fetch that raises names what its window starts with, and so does an instruction that was fetched. -/
theorem fatalErrorsArePrecise : Obligations.FatalErrorsArePrecise := by
  intro s t hstep hfaulted
  have hprecise : ∃ r, t = faulted s (fetchWindow s).head? r := by
    obtain ⟨hrun, ⟨op, r, hraised, ht⟩ | ⟨i, rest, hdec, hexec⟩⟩ := step_cases hstep
    · exact ⟨r, (fetchInstr_raised hraised).1 ▸ ht⟩
    · obtain ⟨r, ht, -, -⟩ := (exec_cases hexec).fatal_of_faulted hrun hfaulted
      exact ⟨r, (fetchWindow_head?_of_decode hdec).symm ▸ ht⟩
  obtain ⟨r, rfl⟩ := hprecise
  exact ⟨_, rfl, rfl, fetchWindow_head? s, step_faulted rfl, exitStatusFollowsRun.2.1 _ rfl⟩

/-- Settles O17: ExecCase holds the matrix for an instruction that was fetched, and `fetchInstr_raised` its row for a fetch. -/
theorem faultMatrixIsClosed : Obligations.FaultMatrixIsClosed := by
  intro s t f hstep hfaulted hf
  obtain ⟨hrun, ⟨op, r, hraised, rfl⟩ | ⟨i, rest, hdec, hexec⟩⟩ := step_cases hstep
  · obtain ⟨-, hkind, hnone⟩ := fetchInstr_raised hraised
    cases hf
    exact ⟨fun i rest h => absurd h (hnone i rest), fun i rest h => absurd h (hnone i rest), fun _ => hkind⟩
  · obtain ⟨r, rfl, hkind, haddress⟩ := (exec_cases hexec).fatal_of_faulted hrun hfaulted
    cases hf
    refine ⟨fun j rest' hj => ?_, fun j rest' hj => ?_, fun h => absurd hdec (h i rest)⟩
    · cases hdec.symm.trans hj
      exact hkind
    · cases hdec.symm.trans hj
      exact haddress

/-- Settles O40: the one register that changes is the destination. -/
theorem onlyTheDestinationIsWritten : Obligations.OnlyTheDestinationIsWritten := by
  intro i s t r hexec hr
  rcases (exec_cases hexec).regs with hsame | ⟨d, v, hd, -, hwritten⟩
  · exact hsame r
  · have hne : r ≠ d := fun e => hr (e ▸ hd)
    rw [hwritten, if_neg hne]

/-- Settles O42: the three ways of the stack in ExecCase. -/
theorem stackIsLastInFirstOut : Obligations.StackIsLastInFirstOut := by
  intro i s t hexec
  rcases (exec_cases hexec).stack with hsame | ⟨hi, v, hpushed, -⟩ | hpopped
  · exact .inl hsame
  · exact .inr (.inl ⟨hi, v, hpushed⟩)
  · exact .inr (.inr hpopped)

/-- Settles O45: an emitted code that is a word is the resolved operand itself. -/
theorem outputOnlyGrowsByOut : Obligations.OutputOnlyGrowsByOut := by
  intro i s t hexec
  rcases (exec_cases hexec).output with hsame | ⟨a, y, hi, hy, hout⟩
  · exact .inl hsame
  · exact .inr ⟨a, y, usedAs .code y, hi, hy, hout, usedAs_word .code⟩

/-- Two sets of parameters of which the second is left by a step from the first. -/
def EnvFollows (e e' : Env) : Prop :=
  e'.beyondImage = e.beyondImage ∧ e'.retEmpty = e.retEmpty ∧ e'.rmemHigh = e.rmemHigh ∧
    (∃ used, e.answers = used ++ e'.answers) ∧
    (e'.later = e.later ∨ e.answers = [] ∧ ∃ n, e.later = .free n ∧ e'.later = .free (n + 1))

theorem envFollows_writesLeft (e : Env) (w : Option Nat) : EnvFollows e { e with writesLeft := w } :=
  ⟨rfl, rfl, rfl, ⟨[], rfl⟩, .inl rfl⟩

theorem envFollows_nextAnswer {e e' : Env} {answer : HostAnswer} (h : nextAnswer e = some (answer, e')) :
    EnvFollows e e' := by
  rcases nextAnswer_some h with ⟨more, hlisted, rfl⟩ | ⟨n, codes, hnone, hfree, -, -, rfl⟩
  · exact ⟨rfl, rfl, rfl, ⟨[answer], hlisted⟩, .inl rfl⟩
  · exact ⟨rfl, rfl, rfl, ⟨[], rfl⟩, .inr ⟨hnone, n, hfree, rfl⟩⟩

theorem ExecCase.envFollows {i : Instr} {s t : State} (h : ExecCase i s t) : EnvFollows s.env t.env := by
  rcases h.env with ⟨w, hw⟩ | ⟨answer, hanswer⟩
  · exact hw ▸ envFollows_writesLeft s.env w
  · exact envFollows_nextAnswer hanswer

/-- Settles O47: a fetch that raises leaves the parameters alone; an instruction counts a write or takes the host's next answer. -/
theorem parametersNeverChange : Obligations.ParametersNeverChange := by
  intro s t hstep
  obtain ⟨-, ⟨op, r, -, rfl⟩ | ⟨i, rest, -, hexec⟩⟩ := step_cases hstep
  · exact envFollows_writesLeft s.env s.env.writesLeft
  · exact (exec_cases hexec).envFollows

/-- The fall-through of a fetched instruction stays in reach and does not wrap. -/
theorem fallThrough_toNat {s : State} {i : Instr} {rest : List Cell} (hdec : decode (fetchWindow s) = .ok i rest) :
    (s.pc + BitVec.ofNat 16 (1 + operandCount i.opcode.toNat)).toNat = s.pc.toNat + 1 + operandCount i.opcode.toNat ∧
      s.pc.toNat + 1 + operandCount i.opcode.toNat ≤ 32768 := by
  have hfetched := fetched_lt_memBound hdec
  have hbound := memBound_le s.env
  rw [BitVec.toNat_add, BitVec.toNat_ofNat]
  omega

/-- Settles O48: with the jumps excluded, the state that runs on is the one that was advanced. -/
theorem fallThroughNeverWraps : Obligations.FallThroughNeverWraps := by
  intro s i rest hdec
  refine ⟨fetched_lt_memBound hdec, fun t hexec hmoved hrun hjmp hcall hret hjt hjf => ?_⟩
  have hstays : ¬ Jumps s i := by
    rintro (⟨a, hi⟩ | ⟨a, hi⟩ | hi | ⟨a, b, y, hi, hy, htaken⟩ | ⟨a, b, y, hi, hy, htaken⟩)
    · exact hjmp a hi
    · exact hcall a hi
    · exact hret hi
    · exact htaken (hjt a b y hi hy)
    · exact hjf a b y hi hy htaken
  rcases (exec_cases hexec).pc with ⟨-, hstopped | hsame⟩ | ⟨hjumps, -⟩ | hadvanced
  · exact absurd hrun hstopped
  · exact absurd hsame hmoved
  · exact absurd hjumps hstays
  · obtain ⟨hpc, hreach⟩ := fallThrough_toNat hdec
    rw [hadvanced, hpc]
    exact ⟨rfl, hreach⟩

/-- Settles O55: only `wmem` changes a cell, and what it stores is a word, since its operands resolve to words. -/
theorem highCellsComeFromTheLoader : Obligations.HighCellsComeFromTheLoader := by
  intro s t a hwords hstep hhigh
  obtain ⟨-, ⟨op, r, -, rfl⟩ | ⟨i, rest, -, hexec⟩⟩ := step_cases hstep
  · rfl
  · rcases (exec_cases hexec).mem with hmem | ⟨c, b, ea, y, -, -, hy, -, hmem⟩
    · rw [hmem]
    · have hstored : (usedAs .stored y).toNat < 32768 := usedAs_lt .stored (resolve_lt hwords hy)
      rw [hmem, memRead_memWriteCell] at hhigh ⊢
      split at hhigh
      · exact absurd hhigh (Nat.not_le.2 hstored)
      · next hother => exact if_neg hother

end Sys2Proof.Machine
end

section
/-! SUPPORT. The invariant: each of its parts is kept by every instruction, a fatal error of a fetch keeps all of it, and reset
meets it (10_state.md sections 2 to 4, 6 and 8). -/

namespace Sys2Proof.Machine

section
variable {i : Instr} {s t : State}

theorem ExecCase.keeps_wf (h : ExecCase i s t) (hwf : Memory.wf s.mem = true) : Memory.wf t.mem = true := by
  rcases h.mem with hmem | ⟨a, b, ea, y, -, -, -, hbound, hmem⟩
  · rwa [hmem]
  · rw [hmem]
    exact memWriteCell_wf s.mem ea.toNat _ hwf (Nat.lt_of_lt_of_le hbound (memBound_le s.env))

/-- A running state has no fault record, so one that ends the run well has none either. -/
theorem ExecCase.keeps_faultRecord (h : ExecCase i s t) (hrun : s.run = .running) (hmatch : FaultRecordMatchesRun s) :
    FaultRecordMatchesRun t := by
  rcases h.run_fault with ⟨r, rfl, -, -⟩ | rfl | ⟨hrun', hfault'⟩
  · simp [FaultRecordMatchesRun]
  · simpa [FaultRecordMatchesRun, hrun] using hmatch
  · rwa [FaultRecordMatchesRun, hrun', hfault']

theorem ExecCase.keeps_words (h : ExecCase i s t) (hhigh : s.env.rmemHigh = .fault) (hwords : HoldsWords s) :
    HoldsWords t := by
  obtain ⟨hregs, hstack, houtput⟩ := id hwords
  refine ⟨fun r => ?_, fun v hv => ?_, fun v hv => ?_⟩
  · rcases h.regs with hsame | ⟨d, v, -, hv, hwritten⟩
    · exact hsame r ▸ hregs r
    · rw [hwritten]
      split
      · exact hv hhigh hwords
      · exact hregs r
  · rcases h.stack with hsame | ⟨-, x, hpushed, hx⟩ | ⟨-, x, hpopped⟩
    · exact hstack v (hsame ▸ hv)
    · rcases List.mem_cons.1 (hpushed ▸ hv) with rfl | hold
      · exact hx hwords
      · exact hstack v hold
    · exact hstack v (hpopped ▸ List.mem_cons_of_mem x hv)
  · rcases h.output with hsame | ⟨a, y, -, hy, hemitted⟩
    · exact houtput v (hsame ▸ hv)
    · rcases List.mem_append.1 (hemitted ▸ hv) with hold | hnew
      · exact houtput v hold
      · rw [List.mem_singleton.1 hnew]
        exact usedAs_lt .code (resolve_lt hwords hy)

/-- A fall-through stays in reach because the instruction was fetched, a jump because its target is a word. -/
theorem ExecCase.keeps_pcInReach {rest : List Cell} (h : ExecCase i s t) (hdec : decode (fetchWindow s) = .ok i rest)
    (hwords : HoldsWords s) (hreach : PcInReach s) : PcInReach t := by
  rcases h.pc with ⟨hkept, -⟩ | ⟨-, htarget⟩ | hadvanced
  · rwa [PcInReach, hkept]
  · exact Nat.le_of_lt (htarget hwords)
  · obtain ⟨hpc, hle⟩ := fallThrough_toNat hdec
    rwa [PcInReach, hadvanced, hpc]

end

/-- Settles O52: a fetch that raises changes RUN and FAULT together; an instruction keeps each part of the invariant. -/
theorem stepKeepsTheInvariant : Obligations.StepKeepsTheInvariant := by
  intro s t hinv hstep
  obtain ⟨hrun, ⟨op, r, -, rfl⟩ | ⟨i, rest, hdec, hexec⟩⟩ := step_cases hstep
  · exact faulted_inv op r hinv
  · have hcase := exec_cases hexec
    obtain ⟨hwf, hmatch, hfault⟩ := hinv
    refine ⟨hcase.keeps_wf hwf, hcase.keeps_faultRecord hrun hmatch, fun hhigh => ?_⟩
    obtain ⟨-, -, hsame, -⟩ := hcase.envFollows
    have hhigh' : s.env.rmemHigh = .fault := hsame ▸ hhigh
    obtain ⟨hwords, hreach⟩ := hfault hhigh'
    exact ⟨hcase.keeps_words hhigh' hwords, hcase.keeps_pcInReach hdec hwords hreach⟩

end Sys2Proof.Machine
end

section
/-! SUPPORT. The image as words, and the boot that loads it: the state after reset, its invariant, and the edges of an image
(50_interfaces.md section 2; 70_reset_and_hazards.md section 1). -/

namespace Sys2Proof

/-- Two bytes a word, an odd last byte dropped. -/
theorem imageWords_length : ∀ image : List Byte, (imageWords image).length = image.length / 2
  | [] | [_] => by simp [imageWords]
  | low :: high :: rest => by
    simp only [imageWords, List.length_cons, imageWords_length rest]
    omega

theorem imageWords_getElem? : ∀ (image : List Byte) (i : Nat), 2 * i + 1 < image.length →
    (imageWords image)[i]? = some (cellOfBytes (image.getD (2 * i) 0) (image.getD (2 * i + 1) 0))
  | [], i, h | [_], i, h => by simp at h
  | low :: high :: rest, 0, _ => rfl
  | low :: high :: rest, i + 1, h => by
    have hrest : 2 * i + 1 < rest.length := by simp only [List.length_cons] at h; omega
    exact imageWords_getElem? rest i hrest

theorem imageWords_odd_byte : ∀ (image : List Byte) (b : Byte), image.length % 2 = 0 →
    imageWords (image ++ [b]) = imageWords image
  | [], b, _ => rfl
  | [_], b, h => by simp at h
  | low :: high :: rest, b, h => by
    have hrest : rest.length % 2 = 0 := by simp only [List.length_cons] at h; omega
    simp only [List.cons_append, imageWords, imageWords_odd_byte rest b hrest]

/-- The low byte first (50_interfaces.md R155). -/
theorem cellOfBytes_toNat (low high : Byte) : (cellOfBytes low high).toNat = low.toNat + 256 * high.toNat := by
  have hlow : low.toNat < 2 ^ 8 := low.isLt
  rw [cellOfBytes, BitVec.toNat_append, Nat.shiftLeft_eq, Nat.mul_comm, ← Nat.two_pow_add_eq_or_of_lt hlow]
  omega

end Sys2Proof

namespace Sys2Proof.Machine

/-- The state that a boot with an admitted image answers. -/
def booted (regInit : Vector Word 8) (env : Env) (image : List Byte) : State :=
  { State.reset with
    mem := memWriteCells [] 0 (imageWords image)
    regs := Vector.ofFn fun r => cellOfWord regInit[r.val]
    env := { env with beyondImage := env.beyondImage.loaded (image.length / 2) } }

theorem boot_admitted (regInit : Vector Word 8) (env : Env) {image : List Byte} (h : image.length / 2 ≤ 32768) :
    boot regInit env image = .next (booted regInit env image) := by
  rw [boot, imageWords_length]
  exact if_pos h

theorem boot_refused (regInit : Vector Word 8) (env : Env) {image : List Byte} (h : 32768 < image.length / 2) :
    boot regInit env image = .refused .imageTooLong := by
  rw [boot, imageWords_length]
  exact if_neg (Nat.not_le.2 h)

theorem boot_next {regInit : Vector Word 8} {env : Env} {image : List Byte} {t : State}
    (h : boot regInit env image = .next t) : t = booted regInit env image := by
  rcases Nat.lt_or_ge 32768 (image.length / 2) with hlong | hfits
  · rw [boot_refused regInit env hlong] at h; cases h
  · rw [boot_admitted regInit env hfits] at h; cases h; rfl

section
variable (regInit : Vector Word 8) (env : Env) {image : List Byte}

theorem readReg_booted (image : List Byte) (r : RegIx) :
    (readReg (booted regInit env image) r).toNat = regInit[r.val].toNat := by
  simp only [readReg, booted, Vector.getElem_ofFn, cellOfWord_toNat]

/-- A cell of the image reads as its word, every other one 0. -/
theorem memRead_booted (hfits : image.length / 2 ≤ 32768) (i : Nat) :
    memRead (booted regInit env image).mem i = ((imageWords image)[i]?).getD 0 := by
  have hroom : 0 + (imageWords image).length ≤ Config.memCells := by rw [imageWords_length, Nat.zero_add]; exact hfits
  simp only [booted, memRead_memWriteCells [] 0 i _ hroom, Nat.zero_le, if_true, Nat.sub_zero, memRead_nil]

theorem memRead_booted_image (hfits : image.length / 2 ≤ 32768) {i : Nat} (hi : 2 * i + 1 < image.length) :
    (memRead (booted regInit env image).mem i).toNat =
      (image.getD (2 * i) 0).toNat + 256 * (image.getD (2 * i + 1) 0).toNat := by
  rw [memRead_booted regInit env hfits, imageWords_getElem? image i hi, Option.getD_some, cellOfBytes_toNat]

theorem memRead_booted_beyond (hfits : image.length / 2 ≤ 32768) {i : Nat} (hi : image.length ≤ 2 * i + 1) :
    memRead (booted regInit env image).mem i = 0 := by
  have hnone : (imageWords image)[i]? = none := List.getElem?_eq_none (by rw [imageWords_length]; omega)
  rw [memRead_booted regInit env hfits, hnone, Option.getD_none]

end

/-- Settles O56: memory by the words of the image, the registers by REG_INIT, the rest as `booted` has it. -/
theorem bootGivesTheResetState : Obligations.BootGivesTheResetState := by
  intro regInit env image hlen
  have hfits : image.length / 2 ≤ 32768 := by omega
  refine ⟨booted regInit env image, boot_admitted regInit env hfits, fun i => memRead_booted_image regInit env hfits,
    fun i => memRead_booted_beyond regInit env hfits, readReg_booted regInit env image,
    rfl, rfl, rfl, rfl, rfl, rfl, rfl, fun hzero => ?_, fun n hfault => ?_⟩
  · exact memBound_zero (by simp only [booted, hzero, BeyondImage.loaded])
  · have hbound : (booted regInit env image).env.beyondImage = .fault (image.length / 2) := by
      simp only [booted, hfault, BeyondImage.loaded]
    rw [memBound_fault hbound, Nat.min_eq_left hfits]

/-- What a state takes from State.reset, with canonical memory and words in the registers, meets the invariant. -/
theorem inv_of_fresh {s : State} (hwf : Memory.wf s.mem = true) (hregs : ∀ r, (readReg s r).toNat < 32768)
    (hstack : s.stack = []) (houtput : s.output = []) (hpc : s.pc = 0) (hrun : s.run = .running) (hfault : s.fault = none) :
    Inv s := by
  refine ⟨hwf, by simp [FaultRecordMatchesRun, hrun, hfault], fun _ => ⟨⟨hregs, ?_, ?_⟩, ?_⟩⟩
  · rw [hstack]; exact nofun
  · rw [houtput]; exact nofun
  · simp [PcInReach, hpc]

/-- Settles O54: the loader keeps memory canonical, and REG_INIT holds words. -/
theorem bootMeetsTheInvariant : Obligations.BootMeetsTheInvariant := by
  intro regInit env image t hboot
  rw [boot_next hboot]
  exact inv_of_fresh (memWriteCells_wf [] 0 (imageWords image) reset_mem_wf)
    (fun r => readReg_booted regInit env image r ▸ regInit[r.val].isLt) rfl rfl rfl rfl rfl

/-- Settles O58: nothing is loaded, and every register word 0 is the cell 0. -/
theorem resetIsTheBootOfNothing : Obligations.ResetIsTheBootOfNothing := rfl

/-- Settles O53: the reset state is that of a boot. -/
theorem resetMeetsTheInvariant : Obligations.ResetMeetsTheInvariant :=
  bootMeetsTheInvariant _ _ _ _ resetIsTheBootOfNothing

/-- Settles O57: `imageWords` drops the odd byte, the empty memory holds `halt` at 0, and an image too long is refused. -/
theorem imageEdgesAreAsStated : Obligations.ImageEdgesAreAsStated := by
  refine ⟨fun regInit env image b heven => ?_, fun regInit env hzero => ?_, fun regInit env image hlong => ?_⟩
  · rw [boot, boot, imageWords_odd_byte image b heven]
  · have hfits : ([] : List Byte).length / 2 ≤ 32768 := by decide
    have hcells : ∀ a, memRead (booted regInit env []).mem a = 0 := fun a =>
      memRead_booted_beyond regInit env hfits (Nat.zero_le _)
    have hbound : memBound (booted regInit env []).env = 32768 :=
      memBound_zero (by simp only [booted, hzero, BeyondImage.loaded])
    have hin : (booted regInit env []).pc.toNat < memBound (booted regInit env []).env := by
      rw [hbound]; exact Nat.zero_lt_succ _
    have hfinds : FindsOpcode (booted regInit env []) 0 := ⟨rfl, hin, hcells _⟩
    exact ⟨booted regInit env [], boot_admitted regInit env hfits, hcells, step_halt hfinds⟩
  · exact boot_refused regInit env (by omega)

end Sys2Proof.Machine
end

section
/-! SUPPORT. The check of the operands, read off the instruction: which error an instruction raises there is fixed by its operands alone, comes
before anything else it does, and is none exactly for a well-formed instruction (30_encoding.md section 4;
40_decode_and_dispatch.md R95 to R97). From it, the shape of each format. -/

namespace Sys2Proof.Machine

/-- What a source operand raises (40_decode_and_dispatch.md R91). -/
def sourceFault : Operand → Option Raised
  | .literal _ | .register _ => none
  | .invalid c => some (illegalWord c)

/-- What a destination operand raises (40_decode_and_dispatch.md R92). -/
def destFault : Operand → Option Raised
  | .register _ => none
  | .literal v => some (expectedRegister (cellOfWord v))
  | .invalid c => some (illegalWord c)

/-- What the operands of an instruction raise: the first of them that is not of its slot's kind. -/
def operandFault : Instr → Option Raised
  | .halt | .ret | .noop => none
  | .pop a | .inp a => destFault a
  | .push a | .jmp a | .call a | .out a => sourceFault a
  | .set a b | .not a b | .rmem a b => (destFault a).or (sourceFault b)
  | .jt a b | .jf a b | .wmem a b => (sourceFault a).or (sourceFault b)
  | .eq a b c | .gt a b c | .add a b c | .mult a b c | .mod a b c | .and a b c | .or a b c =>
    (destFault a).or ((sourceFault b).or (sourceFault c))

/-! ### The operand readers raise just that -/

theorem resolve_eq_error {s : State} {a : Operand} {r : Raised} : resolve s a = .error r ↔ sourceFault a = some r := by
  cases a <;> simp [sourceFault]

theorem asReg_eq_error {a : Operand} {r : Raised} : asReg a = .error r ↔ destFault a = some r := by
  cases a <;> simp [destFault]

theorem sourceFault_of_resolve {s : State} {a : Operand} {x : Cell} (h : resolve s a = .ok x) : sourceFault a = none := by
  cases a with
  | literal v | register r => rfl
  | invalid c => cases h

theorem destFault_of_asReg {a : Operand} {d : RegIx} (h : asReg a = .ok d) : destFault a = none := by
  rw [asReg_ok.1 h, destFault]

theorem readRV_eq_error {s : State} {a b : Operand} {r : Raised} :
    readRV s a b = .error r ↔ (destFault a).or (sourceFault b) = some r := by
  unfold readRV
  cases ha : asReg a with
  | error e => simp [asReg_eq_error.1 ha]
  | ok d =>
    cases hb : resolve s b with
    | error e => simp [destFault_of_asReg ha, resolve_eq_error.1 hb]
    | ok x => simp [destFault_of_asReg ha, sourceFault_of_resolve hb]

theorem readVV_eq_error {s : State} {a b : Operand} {r : Raised} :
    readVV s a b = .error r ↔ (sourceFault a).or (sourceFault b) = some r := by
  unfold readVV
  cases ha : resolve s a with
  | error e => simp [resolve_eq_error.1 ha]
  | ok x =>
    cases hb : resolve s b with
    | error e => simp [sourceFault_of_resolve ha, resolve_eq_error.1 hb]
    | ok y => simp [sourceFault_of_resolve ha, sourceFault_of_resolve hb]

theorem readRVV_eq_error {s : State} {a b c : Operand} {r : Raised} :
    readRVV s a b c = .error r ↔ (destFault a).or ((sourceFault b).or (sourceFault c)) = some r := by
  unfold readRVV
  cases ha : asReg a with
  | error e => simp [asReg_eq_error.1 ha]
  | ok d =>
    simp only [destFault_of_asReg ha, Option.none_or, ← readVV_eq_error (s := s)]
    cases hbc : readVV s b c <;> simp

/-- Every meaning reads its operands first, and takes the error they raise. -/
theorem exec_of_operandFault {i : Instr} {r : Raised} (s : State) (h : operandFault i = some r) :
    exec i s = takeFault s i.opcode r := by
  cases i with
  | halt | ret | noop => cases h
  | pop a | inp a => simp only [exec, execPop, execInp, asReg_eq_error.2 h]
  | push a | jmp a | call a | out a => simp only [exec, execPush, execJmp, execCall, execOut, resolve_eq_error.2 h]
  | set a b | not a b | rmem a b => simp only [exec, execSet, execNot, execRmem, readRV_eq_error.2 h]
  | jt a b | jf a b | wmem a b => simp only [exec, execJt, execJf, execWmem, readVV_eq_error.2 h]
  | eq a b c | gt a b c | add a b c | mult a b c | mod a b c | and a b c | or a b c =>
    simp only [exec, execEq, execGt, execAdd, execMult, execMod, execAnd, execOr, readRVV_eq_error.2 h]

theorem faultsWith_of_operandFault {i : Instr} {r : Raised} {op : Cell} (s : State) (hop : i.opcode = op)
    (h : operandFault i = some r) : FaultsWith (exec i s) s r.kind (some op) r.offending := by
  rw [exec_of_operandFault s h, hop]
  exact faultsWith_takeFault s op r

/-! ### The shapes -/

theorem shapeR {mk : Operand → Instr} {op : Cell} (hdec : ∀ a rest, decode (op :: a :: rest) = .ok (mk (classify a)) rest)
    (hlen : op.toNat < 22 ∧ operandCount op.toNat = 1) (hop : ∀ a, (mk a).opcode = op)
    (hfault : ∀ a, operandFault (mk a) = destFault a) : ShapeR mk op :=
  ⟨hdec, hlen.2 ▸ cutOffFaults hlen.1,
    fun s c => faultsWith_of_operandFault (r := illegalWord c) s (hop _) (hfault _),
    fun s v => faultsWith_of_operandFault (r := expectedRegister (cellOfWord v)) s (hop _) (hfault _)⟩

theorem shapeV {mk : Operand → Instr} {op : Cell} (hdec : ∀ a rest, decode (op :: a :: rest) = .ok (mk (classify a)) rest)
    (hlen : op.toNat < 22 ∧ operandCount op.toNat = 1) (hop : ∀ a, (mk a).opcode = op)
    (hfault : ∀ a, operandFault (mk a) = sourceFault a) : ShapeV mk op :=
  ⟨hdec, hlen.2 ▸ cutOffFaults hlen.1,
    fun s c => faultsWith_of_operandFault (r := illegalWord c) s (hop _) (hfault _)⟩

theorem shapeRV {mk : Operand → Operand → Instr} {op : Cell}
    (hdec : ∀ a b rest, decode (op :: a :: b :: rest) = .ok (mk (classify a) (classify b)) rest)
    (hlen : op.toNat < 22 ∧ operandCount op.toNat = 2) (hop : ∀ a b, (mk a b).opcode = op)
    (hfault : ∀ a b, operandFault (mk a b) = (destFault a).or (sourceFault b)) : ShapeRV mk op :=
  ⟨hdec, hlen.2 ▸ cutOffFaults hlen.1,
    fun s c b => faultsWith_of_operandFault (r := illegalWord c) s (hop _ b) (hfault _ b),
    fun s v b => faultsWith_of_operandFault (r := expectedRegister (cellOfWord v)) s (hop _ b) (hfault _ b),
    fun s d c => faultsWith_of_operandFault (r := illegalWord c) s (hop (.register d) _) (hfault _ _)⟩

theorem shapeVV {mk : Operand → Operand → Instr} {op : Cell}
    (hdec : ∀ a b rest, decode (op :: a :: b :: rest) = .ok (mk (classify a) (classify b)) rest)
    (hlen : op.toNat < 22 ∧ operandCount op.toNat = 2) (hop : ∀ a b, (mk a b).opcode = op)
    (hfault : ∀ a b, operandFault (mk a b) = (sourceFault a).or (sourceFault b)) : ShapeVV mk op := by
  refine ⟨hdec, hlen.2 ▸ cutOffFaults hlen.1,
    fun s c b => faultsWith_of_operandFault (r := illegalWord c) s (hop _ b) (hfault _ b), fun s a x c ha => ?_⟩
  have hsecond : operandFault (mk a (.invalid c)) = some (illegalWord c) := by
    rw [hfault, sourceFault_of_resolve ha, Option.none_or, sourceFault]
  exact faultsWith_of_operandFault s (hop a _) hsecond

theorem shapeRVV {mk : Operand → Operand → Operand → Instr} {op : Cell}
    (hdec : ∀ a b c rest, decode (op :: a :: b :: c :: rest) = .ok (mk (classify a) (classify b) (classify c)) rest)
    (hlen : op.toNat < 22 ∧ operandCount op.toNat = 3) (hop : ∀ a b c, (mk a b c).opcode = op)
    (hfault : ∀ a b c, operandFault (mk a b c) = (destFault a).or ((sourceFault b).or (sourceFault c))) :
    ShapeRVV mk op := by
  refine ⟨hdec, hlen.2 ▸ cutOffFaults hlen.1,
    fun s w b c => faultsWith_of_operandFault (r := illegalWord w) s (hop _ b c) (hfault _ b c),
    fun s v b c => faultsWith_of_operandFault (r := expectedRegister (cellOfWord v)) s (hop _ b c) (hfault _ b c),
    fun s d w c => faultsWith_of_operandFault (r := illegalWord w) s (hop (.register d) _ c) (hfault _ _ c),
    fun s d b x w hb => ?_⟩
  have hthird : operandFault (mk (.register d) b (.invalid w)) = some (illegalWord w) := by
    rw [hfault, sourceFault_of_resolve hb, destFault, Option.none_or, Option.none_or, sourceFault]
  exact faultsWith_of_operandFault s (hop _ b _) hthird

/-! ### Well-formed instructions -/

theorem sourceFault_eq_none {a : Operand} : sourceFault a = none ↔ a.isVal = true := by
  cases a <;> simp [sourceFault, Operand.isVal]

theorem destFault_eq_none {a : Operand} : destFault a = none ↔ a.isReg = true := by
  cases a <;> simp [destFault, Operand.isReg]

/-- The operands raise nothing exactly when each is of its slot's kind. -/
theorem operandFault_eq_none {i : Instr} : operandFault i = none ↔ i.wellFormed = true := by
  cases i <;>
    simp [operandFault, Instr.wellFormed, Option.or_eq_none_iff, sourceFault_eq_none, destFault_eq_none, and_assoc]

/-- An error at an operand names the cell. -/
def IsOperandFault (r : Raised) : Prop := ∃ c, r = illegalWord c ∨ r = expectedRegister c

theorem isOperandFault_of_source {a : Operand} {r : Raised} (h : sourceFault a = some r) : IsOperandFault r := by
  cases a with
  | literal v | register r => cases h
  | invalid c => cases h; exact ⟨c, .inl rfl⟩

theorem isOperandFault_of_dest {a : Operand} {r : Raised} (h : destFault a = some r) : IsOperandFault r := by
  cases a with
  | register r => cases h
  | literal v => cases h; exact ⟨cellOfWord v, .inr rfl⟩
  | invalid c => cases h; exact ⟨c, .inl rfl⟩

theorem isOperandFault_of_or {f g : Option Raised} {r : Raised} (hf : f = some r → IsOperandFault r)
    (hg : g = some r → IsOperandFault r) (h : f.or g = some r) : IsOperandFault r := by
  rcases Option.or_eq_some_iff.1 h with h | ⟨-, h⟩
  · exact hf h
  · exact hg h

theorem isOperandFault_of_operandFault {i : Instr} {r : Raised} (h : operandFault i = some r) : IsOperandFault r := by
  cases i with
  | halt | ret | noop => cases h
  | pop a | inp a => exact isOperandFault_of_dest h
  | push a | jmp a | call a | out a => exact isOperandFault_of_source h
  | set a b | not a b | rmem a b => exact isOperandFault_of_or isOperandFault_of_dest isOperandFault_of_source h
  | jt a b | jf a b | wmem a b => exact isOperandFault_of_or isOperandFault_of_source isOperandFault_of_source h
  | eq a b c | gt a b c | add a b c | mult a b c | mod a b c | and a b c | or a b c =>
    exact isOperandFault_of_or isOperandFault_of_dest
      (isOperandFault_of_or isOperandFault_of_source isOperandFault_of_source) h

end Sys2Proof.Machine
end

section
/-! SUPPORT. What each instruction does once its operands are read, an equation per case, and the statements about it
(41_halt_noop.md to 47_out_in.md). -/

namespace Sys2Proof.Machine

/-- Settles O8: what resolves is a literal or a register's word, and a word is used as it is. -/
theorem wordsAreUsedAsTheyAre : Obligations.WordsAreUsedAsTheyAre :=
  ⟨fun _ _ _ => resolve_lt, fun u _ => usedAs_word u⟩

/-! ### The frames of the operations -/

/-- A result in a register, then the fall-through. -/
theorem writesReg_advance_writeReg (s : State) (d : RegIx) (v : Cell) (n : Nat) :
    WritesReg s (advance (writeReg s d v) n) d v.toNat n :=
  ⟨by rw [readReg_advance, readReg_writeReg_same], rfl, fun r hr => readReg_writeReg_ne s d r v hr, fun _ => rfl, rfl,
    ⟨rfl, rfl, rfl⟩, rfl, rfl⟩

theorem sameButPc_jumpTo (s : State) (x : Cell) : SameButPc s (jumpTo s x) :=
  ⟨readReg_jumpTo s x, fun _ => rfl, rfl, ⟨rfl, rfl, rfl⟩, rfl, rfl⟩

theorem sameButStackPc_advance (s : State) (l : List Cell) (n : Nat) : SameButStackPc s (advance (withStack s l) n) :=
  ⟨fun _ => rfl, fun _ => rfl, ⟨rfl, rfl, rfl⟩, rfl, rfl⟩

theorem sameButStackPc_jumpTo (s : State) (l : List Cell) (x : Cell) : SameButStackPc s (jumpTo (withStack s l) x) :=
  ⟨fun _ => rfl, fun _ => rfl, ⟨rfl, rfl, rfl⟩, rfl, rfl⟩

/-- The number of a word is what a use of it goes by. -/
theorem usedAs_toNat (u : WordUse) {x : Cell} (h : x.toNat < 32768) : (usedAs u x).toNat = x.toNat := by
  rw [usedAs_word u h]

/-! ### set, not -/

section
variable {s : State} {b : Operand} {x : Cell} (d : RegIx)

theorem exec_set (hb : resolve s b = .ok x) : exec (.set (.register d) b) s = .next (advance (writeReg s d x) 3) := by
  simp only [exec, execSet, readRV_ok.2 ⟨rfl, hb⟩]

theorem exec_not (hb : resolve s b = .ok x) :
    exec (.not (.register d) b) s = .next (advance (writeReg s d (notResult x)) 3) := by
  simp only [exec, execNot, readRV_ok.2 ⟨rfl, hb⟩]

end

/-- Settles O20: the resolved source is written as it is. -/
theorem setCopiesTheSource : Obligations.SetCopiesTheSource :=
  ⟨shapeRV (fun _ _ _ => rfl) (by decide) (fun _ _ => rfl) (fun _ _ => rfl),
    fun s d _ x hb => ⟨_, exec_set d hb, writesReg_advance_writeReg s d x 3⟩⟩

theorem notResult_toNat (x : Cell) : (notResult x).toNat = 32767 - x.toNat % 32768 := by
  have hx : x.toNat < 65536 := x.isLt
  rw [notResult, low15_toNat, BitVec.toNat_not]
  omega

theorem notResult_getLsbD (x : Cell) {i : Nat} (hi : i < 15) : (notResult x).getLsbD i = !x.getLsbD i := by
  have hi' : i < 16 := by omega
  rw [notResult, low15_getLsbD, decide_eq_true hi, Bool.true_and, BitVec.getLsbD_not, decide_eq_true hi', Bool.true_and]

/-- Settles O35: complementing 15 bits is subtracting from 32767. -/
theorem notIsTheComplementOf15Bits : Obligations.NotIsTheComplementOf15Bits :=
  ⟨shapeRV (fun _ _ _ => rfl) (by decide) (fun _ _ => rfl) (fun _ _ => rfl),
    fun s d _ x hb => ⟨_, notResult x, exec_not d hb, writesReg_advance_writeReg s d (notResult x) 3, notResult_toNat x,
      fun _ hi => notResult_getLsbD x hi⟩⟩

/-! ### eq, gt, add, mult, and, or; mod -/

/-- An instruction of format RVV that writes a function of its two sources. -/
def BinaryOp (mk : Operand → Operand → Operand → Instr) (f : Cell → Cell → Cell) : Prop :=
  ∀ s d b c x y, resolve s b = .ok x → resolve s c = .ok y →
    exec (mk (.register d) b c) s = .next (advance (writeReg s d (f x y)) 4)

theorem binaryOp_eq : BinaryOp .eq eqResult := fun _ _ _ _ _ _ hb hc => by
  simp only [exec, execEq, readRVV_ok.2 ⟨rfl, hb, hc⟩]

theorem binaryOp_gt : BinaryOp .gt gtResult := fun _ _ _ _ _ _ hb hc => by
  simp only [exec, execGt, readRVV_ok.2 ⟨rfl, hb, hc⟩]

theorem binaryOp_add : BinaryOp .add addResult := fun _ _ _ _ _ _ hb hc => by
  simp only [exec, execAdd, readRVV_ok.2 ⟨rfl, hb, hc⟩]

theorem binaryOp_mult : BinaryOp .mult multResult := fun _ _ _ _ _ _ hb hc => by
  simp only [exec, execMult, readRVV_ok.2 ⟨rfl, hb, hc⟩]

theorem binaryOp_and : BinaryOp .and andResult := fun _ _ _ _ _ _ hb hc => by
  simp only [exec, execAnd, readRVV_ok.2 ⟨rfl, hb, hc⟩]

theorem binaryOp_or : BinaryOp .or orResult := fun _ _ _ _ _ _ hb hc => by
  simp only [exec, execOr, readRVV_ok.2 ⟨rfl, hb, hc⟩]

/-- A binary operation writes the number its function gives. -/
theorem BinaryOp.writes {mk : Operand → Operand → Operand → Instr} {f : Cell → Cell → Cell} (hop : BinaryOp mk f)
    {s : State} (d : RegIx) {b c : Operand} {x y : Cell} (hb : resolve s b = .ok x) (hc : resolve s c = .ok y) {n : Nat}
    (hn : (f x y).toNat = n) : ∃ t, exec (mk (.register d) b c) s = .next t ∧ WritesReg s t d n 4 :=
  ⟨_, hop s d b c x y hb hc, hn ▸ writesReg_advance_writeReg s d (f x y) 4⟩

theorem truthCell_decide_toNat (p : Prop) [Decidable p] : (truthCell (decide p)).toNat = if p then 1 else 0 := by
  by_cases hp : p <;> simp [truthCell, hp]

/-- Settles O23: `eqResult` is the truth of the equality of the numbers. -/
theorem eqWritesEquality : Obligations.EqWritesEquality :=
  ⟨shapeRVV (fun _ _ _ _ => rfl) (by decide) (fun _ _ _ => rfl) (fun _ _ _ => rfl),
    fun _ d _ _ _ _ hb hc => binaryOp_eq.writes d hb hc (truthCell_decide_toNat _)⟩

/-- Settles O24: `gtResult` is the truth of the strict order of the numbers. -/
theorem gtWritesStrictOrder : Obligations.GtWritesStrictOrder :=
  ⟨shapeRVV (fun _ _ _ _ => rfl) (by decide) (fun _ _ _ => rfl) (fun _ _ _ => rfl),
    fun _ d _ _ _ _ hb hc => binaryOp_gt.writes d hb hc (truthCell_decide_toNat _)⟩

/-- Settles O30: the sum as a number, reduced. -/
theorem addIsModulo32768 : Obligations.AddIsModulo32768 :=
  ⟨shapeRVV (fun _ _ _ _ => rfl) (by decide) (fun _ _ _ => rfl) (fun _ _ _ => rfl),
    fun _ d _ _ x y hb hc => binaryOp_add.writes d hb hc (addResult_toNat x y)⟩

/-- Settles O31: the product as a number, reduced. -/
theorem multIsExactThenModulo32768 : Obligations.MultIsExactThenModulo32768 :=
  ⟨shapeRVV (fun _ _ _ _ => rfl) (by decide) (fun _ _ _ => rfl) (fun _ _ _ => rfl),
    fun _ d _ _ x y hb hc => binaryOp_mult.writes d hb hc (multResult_toNat x y)⟩

theorem andResult_getLsbD (x y : Cell) {i : Nat} (hi : i < 15) :
    (andResult x y).getLsbD i = true ↔ x.getLsbD i = true ∧ y.getLsbD i = true := by
  simp [andResult, low15_getLsbD, hi]

/-- Settles O33: the mask of 15 bits keeps the bits below 15. -/
theorem andIsBitwise : Obligations.AndIsBitwise := by
  refine ⟨shapeRVV (fun _ _ _ _ => rfl) (by decide) (fun _ _ _ => rfl) (fun _ _ _ => rfl), fun s d b c x y hb hc => ?_⟩
  obtain ⟨t, hexec, hwrites⟩ := binaryOp_and.writes d hb hc rfl
  exact ⟨t, andResult x y, hexec, hwrites, andResult_lt x y, fun _ hi => andResult_getLsbD x y hi⟩

theorem orResult_getLsbD (x y : Cell) {i : Nat} (hi : i < 15) :
    (orResult x y).getLsbD i = true ↔ x.getLsbD i = true ∨ y.getLsbD i = true := by
  simp [orResult, low15_getLsbD, hi]

/-- Settles O34: the mask of 15 bits keeps the bits below 15. -/
theorem orIsBitwise : Obligations.OrIsBitwise := by
  refine ⟨shapeRVV (fun _ _ _ _ => rfl) (by decide) (fun _ _ _ => rfl) (fun _ _ _ => rfl), fun s d b c x y hb hc => ?_⟩
  obtain ⟨t, hexec, hwrites⟩ := binaryOp_or.writes d hb hc rfl
  exact ⟨t, orResult x y, hexec, hwrites, orResult_lt x y, fun _ hi => orResult_getLsbD x y hi⟩

section
variable {s : State} {b c : Operand} {x y : Cell} (d : RegIx)

theorem exec_mod (hb : resolve s b = .ok x) (hc : resolve s c = .ok y) (hy : y.toNat ≠ 0) :
    exec (.mod (.register d) b c) s = .next (advance (writeReg s d (usedAs .remainder (modResult x y))) 4) := by
  simp only [exec, execMod, readRVV_ok.2 ⟨rfl, hb, hc⟩, if_neg hy]

theorem exec_mod_zero (hb : resolve s b = .ok x) (hc : resolve s c = .ok y) (hy : y.toNat = 0) :
    exec (.mod (.register d) b c) s =
      takeFault s 11 { kind := .divisionByZero, offending := some (.cell (cellOf c)) } := by
  simp only [exec, execMod, readRVV_ok.2 ⟨rfl, hb, hc⟩, if_pos hy, Instr.opcode]

end

/-- Settles O32: quotient and remainder of the numbers; the divisor is the third operand cell. -/
theorem modIsTheRemainder : Obligations.ModIsTheRemainder := by
  refine ⟨shapeRVV (fun _ _ _ _ => rfl) (by decide) (fun _ _ _ => rfl) (fun _ _ _ => rfl),
    fun s d b c x y hb hc hy => ?_, fun s d b c x y hb hc hy => exec_mod_zero d hb hc hy⟩
  have hdivide : x.toNat = x.toNat / y.toNat * y.toNat + x.toNat % y.toNat := (Nat.div_add_mod' _ _).symm
  refine ⟨_, x.toNat / y.toNat, x.toNat % y.toNat, _, exec_mod d hb hc hy, writesReg_advance_writeReg s d _ 4,
    Nat.mod_lt _ (Nat.pos_of_ne_zero hy), hdivide, fun hword => ?_⟩
  rw [← modResult_toNat] at hword ⊢
  exact usedAs_toNat .remainder hword

/-! ### push, pop -/

theorem exec_push {s : State} {a : Operand} {x : Cell} (ha : resolve s a = .ok x) :
    exec (.push a) s = .next (advance (pushEntry s (usedAs .stackEntry x)) 2) := by
  simp only [exec, execPush, ha]

theorem exec_pop {s : State} (d : RegIx) {v : Cell} {rest : List Cell} (hs : s.stack = v :: rest) :
    exec (.pop (.register d)) s = .next (advance (writeReg (withStack s rest) d v) 2) := by
  simp only [exec, execPop, asReg_register, hs]

theorem exec_pop_empty {s : State} (d : RegIx) (hs : s.stack = []) :
    exec (.pop (.register d)) s = takeFault s 3 { kind := .stackUnderflow, offending := none } := by
  simp only [exec, execPop, asReg_register, hs, Instr.opcode]

/-- Settles O21: the entry on top is what the stack makes of the resolved source. -/
theorem pushAddsATopEntry : Obligations.PushAddsATopEntry :=
  ⟨shapeV (fun _ _ => rfl) (by decide) (fun _ => rfl) (fun _ => rfl),
    fun s _ x ha => ⟨_, usedAs .stackEntry x, exec_push ha, rfl, usedAs_word .stackEntry, rfl,
      sameButStackPc_advance s (usedAs .stackEntry x :: s.stack) 2⟩⟩

/-- Settles O22: the top entry moves to the register; on an empty stack there is none. -/
theorem popTakesTheTopEntry : Obligations.PopTakesTheTopEntry := by
  refine ⟨shapeR (fun _ _ => rfl) (by decide) (fun _ => rfl) (fun _ => rfl), fun s d v rest hs => ?_,
    fun s d hs => exec_pop_empty d hs⟩
  exact ⟨_, exec_pop d hs, rfl, readReg_writeReg_same (withStack s rest) d v, rfl,
    fun r hr => readReg_writeReg_ne (withStack s rest) d r v hr, fun _ => rfl, ⟨rfl, rfl, rfl⟩, rfl, rfl⟩

/-- Settles O50: `pop` takes off what `push` put on. -/
theorem popUndoesPush : Obligations.PopUndoesPush := by
  intro s a d x ha hx
  refine ⟨_, _, exec_push ha, exec_pop d rfl, ?_, rfl⟩
  rw [readReg_advance, readReg_writeReg_same, usedAs_word .stackEntry hx]

/-! ### jmp, jt, jf, call, ret -/

theorem exec_jmp {s : State} {a : Operand} {x : Cell} (ha : resolve s a = .ok x) :
    exec (.jmp a) s = .next (jumpTo s (usedAs .target x)) := by
  simp only [exec, execJmp, ha]

/-- Settles O25: `jmp` sets pc and nothing else. -/
theorem jmpGoesToTheTarget : Obligations.JmpGoesToTheTarget :=
  ⟨shapeV (fun _ _ => rfl) (by decide) (fun _ => rfl) (fun _ => rfl),
    fun s _ x ha => ⟨_, exec_jmp ha, usedAs_toNat .target, sameButPc_jumpTo s _⟩⟩

theorem truthy_of_ne {x : Cell} (h : x.toNat ≠ 0) : truthy x = true := truthy_iff.2 h

theorem truthy_of_eq {x : Cell} (h : x.toNat = 0) : truthy x = false :=
  Bool.eq_false_iff.2 fun ht => truthy_iff.1 ht h

section
variable {s : State} {a b : Operand} {x y : Cell}

theorem exec_jt_taken (ha : resolve s a = .ok x) (hb : resolve s b = .ok y) (hx : x.toNat ≠ 0) :
    exec (.jt a b) s = .next (jumpTo s (usedAs .target y)) := by
  simp only [exec, execJt, readVV_ok.2 ⟨ha, hb⟩, truthy_of_ne hx, if_true]

theorem exec_jt_not_taken (ha : resolve s a = .ok x) (hb : resolve s b = .ok y) (hx : x.toNat = 0) :
    exec (.jt a b) s = .next (advance s 3) := by
  simp only [exec, execJt, readVV_ok.2 ⟨ha, hb⟩, truthy_of_eq hx, Bool.false_eq_true, if_false]

theorem exec_jf_taken (ha : resolve s a = .ok x) (hb : resolve s b = .ok y) (hx : x.toNat = 0) :
    exec (.jf a b) s = .next (jumpTo s (usedAs .target y)) := by
  simp only [exec, execJf, readVV_ok.2 ⟨ha, hb⟩, truthy_of_eq hx, Bool.false_eq_true, if_false]

theorem exec_jf_not_taken (ha : resolve s a = .ok x) (hb : resolve s b = .ok y) (hx : x.toNat ≠ 0) :
    exec (.jf a b) s = .next (advance s 3) := by
  simp only [exec, execJf, readVV_ok.2 ⟨ha, hb⟩, truthy_of_ne hx, if_true]

end

/-- Settles O26: taken on a condition that is not 0, with both operands read before. -/
theorem jtJumpsOnNonZero : Obligations.JtJumpsOnNonZero := by
  refine ⟨shapeVV (fun _ _ _ => rfl) (by decide) (fun _ _ => rfl) (fun _ _ => rfl), fun s a b x y ha hb => ?_⟩
  by_cases hx : x.toNat = 0
  · exact ⟨_, exec_jt_not_taken ha hb hx, sameButPc_advance s 3, fun hne => absurd hx hne, fun _ => rfl⟩
  · exact ⟨_, exec_jt_taken ha hb hx, sameButPc_jumpTo s _, fun _ => usedAs_toNat .target, fun h0 => absurd h0 hx⟩

/-- Settles O27: taken on the condition 0, with both operands read before. -/
theorem jfJumpsOnZero : Obligations.JfJumpsOnZero := by
  refine ⟨shapeVV (fun _ _ _ => rfl) (by decide) (fun _ _ => rfl) (fun _ _ => rfl), fun s a b x y ha hb => ?_⟩
  by_cases hx : x.toNat = 0
  · exact ⟨_, exec_jf_taken ha hb hx, sameButPc_jumpTo s _, fun _ => usedAs_toNat .target, fun hne => absurd hx hne⟩
  · exact ⟨_, exec_jf_not_taken ha hb hx, sameButPc_advance s 3, fun h0 => absurd h0 hx, fun _ => rfl⟩

section
variable {s : State} {a : Operand} {x : Cell}

theorem exec_call (ha : resolve s a = .ok x) (hback : s.pc.toNat + 2 < 32768) :
    exec (.call a) s = .next (jumpTo (pushEntry s (BitVec.ofNat 16 (s.pc.toNat + 2))) (usedAs .target x)) := by
  simp only [exec, execCall, ha, returnAddress_ok.2 ⟨hback, rfl⟩]

theorem exec_call_past (ha : resolve s a = .ok x) (hback : 32768 ≤ s.pc.toNat + 2) :
    exec (.call a) s =
      takeFault s 17 { kind := .addressOutOfRange, offending := some (.address (s.pc.toNat + 2)) } := by
  simp only [exec, execCall, ha, returnAddress, if_neg (Nat.not_lt.2 hback), Instr.opcode]

theorem returnCell_toNat (hback : s.pc.toNat + 2 < 32768) : (BitVec.ofNat 16 (s.pc.toNat + 2)).toNat = s.pc.toNat + 2 := by
  rw [BitVec.toNat_ofNat]
  exact Nat.mod_eq_of_lt (by omega)

theorem exec_ret {v : Cell} {rest : List Cell} (hs : s.stack = v :: rest) :
    exec .ret s = .next (jumpTo (withStack s rest) (usedAs .target v)) := by
  simp only [exec, execRet, hs]

theorem exec_ret_empty_fault (hs : s.stack = []) (hr : s.env.retEmpty = .fault) :
    exec .ret s = takeFault s 18 { kind := .stackUnderflow, offending := none } := by
  simp only [exec, execRet, hs, retOnEmpty, hr, Instr.opcode]

theorem exec_ret_empty_halt (hs : s.stack = []) (hr : s.env.retEmpty = .halt) : exec .ret s = .next (haltRun s) := by
  simp only [exec, execRet, hs, retOnEmpty, hr]

end

/-- Settles O28: the return address is a word or the fault; the push comes after that check. -/
theorem callPushesAndJumps : Obligations.CallPushesAndJumps :=
  ⟨shapeV (fun _ _ => rfl) (by decide) (fun _ => rfl) (fun _ => rfl),
    fun s _ x ha hback => ⟨_, BitVec.ofNat 16 (s.pc.toNat + 2), exec_call ha hback, rfl, returnCell_toNat hback,
      usedAs_toNat .target, sameButStackPc_jumpTo s (_ :: s.stack) (usedAs .target x)⟩,
    fun _ _ _ ha hpast => exec_call_past ha hpast⟩

/-- Settles O29: the top entry is the target; the empty stack is left to RET_EMPTY. -/
theorem retPopsIntoPc : Obligations.RetPopsIntoPc :=
  ⟨fun _ => rfl,
    fun s v rest hs => ⟨_, exec_ret hs, rfl, usedAs_toNat .target, sameButStackPc_jumpTo s rest (usedAs .target v)⟩,
    fun _ hs hr => exec_ret_empty_fault hs hr, fun _ hs hr => exec_ret_empty_halt hs hr⟩

/-- Settles O51: what `call` pushed is a word, so `ret` goes there. -/
theorem retReturnsAfterTheCall : Obligations.RetReturnsAfterTheCall := by
  intro s a x ha hback
  have hword := returnCell_toNat hback
  refine ⟨_, exec_call ha hback, fun u hu => ⟨_, exec_ret hu, ?_, rfl⟩⟩
  rw [jumpTo_pc, usedAs_toNat .target (hword.symm ▸ hback), hword]

end Sys2Proof.Machine
end

section
/-! SUPPORT. rmem and wmem, the instructions with a data access: an equation per case, and the statements about them
(46_rmem_wmem.md; 20_memory.md sections 3 and 6). -/

namespace Sys2Proof.Machine

/-- A word is its own address. -/
theorem dataAddress_word {s : State} {a : Operand} {x : Cell} (ha : resolve s a = .ok x) (hx : x.toNat < 32768) :
    DataAddress s a x :=
  ⟨x, ha, usedAs_word .address hx⟩

theorem checkAddress_past {s : State} {a : Cell} (h : memBound s.env ≤ a.toNat) :
    checkAddress s a = .error { kind := .addressOutOfRange, offending := some (.address a.toNat) } :=
  if_neg (Nat.not_lt.2 h)

theorem loadCell_past {s : State} {a : Cell} (h : memBound s.env ≤ a.toNat) :
    loadCell s a = .error { kind := .addressOutOfRange, offending := some (.address a.toNat) } := by
  simp only [loadCell, checkAddress_past h]

theorem loadCell_high {s : State} {a : Cell} (hin : a.toNat < memBound s.env)
    (hhigh : 32768 ≤ (memRead s.mem a.toNat).toNat) (hfault : s.env.rmemHigh = .fault) :
    loadCell s a = .error { kind := .rawWordOutOfRange, offending := some (.cell (memRead s.mem a.toNat)) } := by
  simp only [loadCell, checkAddress_ok.2 hin, loadedCell, if_neg (Nat.not_lt.2 hhigh), hfault]

section
variable {s : State} {b : Operand} {ea v : Cell} (d : RegIx)

theorem exec_rmem (ha : DataAddress s b ea) (hload : loadCell s ea = .ok v) :
    exec (.rmem (.register d) b) s = .next (advance (writeReg s d v) 3) := by
  obtain ⟨x, hx, rfl⟩ := ha
  simp only [exec, execRmem, readRV_ok.2 ⟨rfl, hx⟩, hload]

theorem exec_rmem_error {r : Raised} (ha : DataAddress s b ea) (hload : loadCell s ea = .error r) :
    exec (.rmem (.register d) b) s = takeFault s 15 r := by
  obtain ⟨x, hx, rfl⟩ := ha
  simp only [exec, execRmem, readRV_ok.2 ⟨rfl, hx⟩, hload, Instr.opcode]

end

/-- Settles O36: the three answers of `loadCell`, each at the address that the source gives. -/
theorem rmemLoadsTheRawCell : Obligations.RmemLoadsTheRawCell := by
  refine ⟨shapeRV (fun _ _ _ => rfl) (by decide) (fun _ _ => rfl) (fun _ _ => rfl), fun _ _ _ => dataAddress_word,
    fun s d b ea ha hin hcell => ?_, fun s d b ea ha hin hhigh hfault => ?_, fun s d b ea ha hpast => ?_⟩
  · exact ⟨_, exec_rmem d ha (loadCell_ok.2 ⟨hin, hcell, rfl⟩), writesReg_advance_writeReg s d _ 3⟩
  · exact exec_rmem_error d ha (loadCell_high hin hhigh hfault)
  · exact exec_rmem_error d ha (loadCell_past hpast)

section
variable {s : State} {a b : Operand} {ea v : Cell}

theorem exec_wmem (ha : DataAddress s a ea) (hb : resolve s b = .ok v) (hin : ea.toNat < memBound s.env) :
    exec (.wmem a b) s = .next (advance (storeCell s ea (usedAs .stored v)) 3) := by
  obtain ⟨x, hx, rfl⟩ := ha
  simp only [exec, execWmem, readVV_ok.2 ⟨hx, hb⟩, checkAddress_ok.2 hin]

theorem exec_wmem_past (ha : DataAddress s a ea) (hb : resolve s b = .ok v) (hpast : memBound s.env ≤ ea.toNat) :
    exec (.wmem a b) s =
      takeFault s 16 { kind := .addressOutOfRange, offending := some (.address ea.toNat) } := by
  obtain ⟨x, hx, rfl⟩ := ha
  simp only [exec, execWmem, readVV_ok.2 ⟨hx, hb⟩, checkAddress_past hpast, Instr.opcode]

theorem memRead_storeCell_same (s : State) (ea v : Cell) : memRead (storeCell s ea v).mem ea.toNat = v := by
  rw [storeCell_mem, memRead_memWriteCell, if_pos rfl]

theorem sameMemBut_storeCell (s : State) (ea v : Cell) : SameMemBut ea.toNat s (storeCell s ea v) := fun k hk => by
  rw [storeCell_mem, memRead_memWriteCell, if_neg hk]

end

/-- Settles O37: the store is that of one whole cell, after the check of its address. -/
theorem wmemStoresTheWord : Obligations.WmemStoresTheWord := by
  refine ⟨shapeVV (fun _ _ _ => rfl) (by decide) (fun _ _ => rfl) (fun _ _ => rfl), fun _ _ _ => dataAddress_word,
    fun s a b ea v ha hb hin => ?_, fun s a b ea v ha hb hpast => exec_wmem_past ha hb hpast⟩
  refine ⟨_, exec_wmem ha hb hin, fun hv => ?_, sameMemBut_storeCell s ea _, rfl, fun _ => rfl, rfl, ⟨rfl, rfl, rfl⟩, rfl, rfl⟩
  rw [advance_mem, memRead_storeCell_same, usedAs_toNat .stored hv]

/-- Settles O49: the fetch window is memory at pc, where the stored cell stands. -/
theorem fetchSeesTheLatestStore : Obligations.FetchSeesTheLatestStore := by
  intro s t u a b ea v k ha hb hin hexec hmem hbeyond hk hpc
  obtain rfl : advance (storeCell s ea (usedAs .stored v)) 3 = t :=
    Host.Outcome.next.inj ((exec_wmem ha hb hin).symm.trans hexec)
  have hin' : u.pc.toNat + k < memBound u.env := by rw [memBound_congr hbeyond, hpc]; exact hin
  have hcell := fetchCells_getElem? u 4 u.pc.toNat k hk hin'
  rw [hpc, hmem, advance_mem, memRead_storeCell_same] at hcell
  exact ⟨_, hcell, memRead_storeCell_same s ea _, usedAs_word .stored⟩

end Sys2Proof.Machine
end

section
/-! SUPPORT. out and in, the instructions that reach the host: an equation per case of the streams, and the statements about them
(47_out_in.md; 50_interfaces.md sections 3 and 4). -/

namespace Sys2Proof.Machine

theorem emitChar_of_accepts {s : State} (v : Cell) (h : s.env.writesLeft ≠ some 0) :
    emitChar s v = .accepted { s with
      output := s.output ++ [v]
      env := { s.env with writesLeft := s.env.writesLeft.map (· - 1) } } := by
  unfold emitChar
  split
  · next hall =>
    have huncounted : s.env.writesLeft.map (· - 1) = s.env.writesLeft := by rw [hall, Option.map_none]
    rw [huncounted]
  · next hnone => exact absurd hnone h
  · next n hmore => simp [hmore]

section
variable {s : State} {a : Operand} {x : Cell}

theorem exec_out {u : State} (ha : resolve s a = .ok x) (hemit : emitChar s (usedAs .code x) = .accepted u) :
    exec (.out a) s = .next (advance u 2) := by
  simp only [exec, execOut, ha, hemit]

theorem exec_out_failed (ha : resolve s a = .ok x) (hfail : s.env.writesLeft = some 0) :
    exec (.out a) s = takeFault s 19 { kind := .ioError .outputWriteFailure, offending := none } := by
  simp only [exec, execOut, ha, emitChar_failed.2 hfail, Instr.opcode]

end

/-- Settles O38: the two verdicts of the host on the write. -/
theorem outEmitsOneCode : Obligations.OutEmitsOneCode := by
  refine ⟨shapeV (fun _ _ => rfl) (by decide) (fun _ => rfl) (fun _ => rfl), fun s a x ha haccepts => ?_,
    fun s a x ha hfail => exec_out_failed ha hfail, fun v hv => if_pos hv⟩
  exact ⟨_, usedAs .code x, exec_out ha (emitChar_of_accepts _ haccepts), rfl, usedAs_word .code, rfl, fun _ => rfl,
    fun _ => rfl, rfl, rfl, ⟨rfl, rfl⟩, rfl⟩

/-- The three sources of an answer, in their order. -/
theorem answersInOrder : AnswersInOrder := by
  refine ⟨fun e a more hlisted => ?_, fun e hnone hsilent => ?_, fun e n hnone hfree => ?_⟩
  · simp only [nextAnswer, hlisted]
  · simp only [nextAnswer, hnone, hsilent]
  · simp only [nextAnswer, hnone, hfree]

section
variable {s : State}

theorem nextInput_buffered {c : Word} {rest : List Word} (h : s.inbuf = c :: rest) :
    nextInput s = .code c { s with inbuf := rest } := by
  simp only [nextInput, h]

theorem nextInput_refilled {c : Word} {rest : List Word} {e : Env} (h : s.inbuf = [])
    (hline : nextAnswer s.env = some (.line (c :: rest), e)) :
    nextInput s = .code c { s with inbuf := rest, env := e } := by
  simp only [nextInput, h, hline]

/-- An answer of no characters is end-of-file too. -/
theorem nextInput_endOfFile {e : Env} (h : s.inbuf = [])
    (heof : nextAnswer s.env = some (.endOfFile, e) ∨ nextAnswer s.env = some (.line [], e)) :
    nextInput s = .endOfFile := by
  rcases heof with heof | heof <;> simp only [nextInput, h, heof]

variable (d : RegIx)

theorem exec_inp {v : Word} {u : State} (h : nextInput s = .code v u) :
    exec (.inp (.register d)) s = .next (advance (writeReg u d (cellOfWord v)) 2) := by
  simp only [exec, execInp, asReg_register, h]

theorem exec_inp_endOfFile (h : nextInput s = .endOfFile) :
    exec (.inp (.register d)) s = takeFault s 20 { kind := .ioError .inputEof, offending := none } := by
  simp only [exec, execInp, asReg_register, h, Instr.opcode]

theorem exec_inp_waiting (h : nextInput s = .waiting) : exec (.inp (.register d)) s = .next s := by
  simp only [exec, execInp, asReg_register, h]

/-- A delivered code is what the destination reads. -/
theorem readReg_delivered (u : State) (v : Word) :
    (readReg (advance (writeReg u d (cellOfWord v)) 2) d).toNat = v.toNat := by
  rw [readReg_advance, readReg_writeReg_same, cellOfWord_toNat]

end

/-- Settles O43: the buffer first, then the host. -/
theorem nextInputTouchesTheHostOnlyWhenEmpty : Obligations.NextInputTouchesTheHostOnlyWhenEmpty :=
  ⟨fun _ _ _ => nextInput_buffered, answersInOrder, fun _ _ _ _ => nextInput_refilled⟩

/-- Settles O39: the answers of NextInput, each taken by the instruction. -/
theorem inDeliversOneCode : Obligations.InDeliversOneCode := by
  refine ⟨shapeR (fun _ _ => rfl) (by decide) (fun _ => rfl) (fun _ => rfl), fun s d c rest hbuf => ?_, answersInOrder,
    fun s d c rest e hempty hline => ?_, fun s d e hempty heof => ?_, fun s d hempty hsilent => ?_⟩
  · exact ⟨_, exec_inp d (nextInput_buffered hbuf), readReg_delivered d _ c, rfl, rfl, rfl,
      fun r hr => readReg_writeReg_ne _ d r _ hr, fun _ => rfl, rfl, rfl, rfl, rfl⟩
  · exact ⟨_, exec_inp d (nextInput_refilled hempty hline), readReg_delivered d _ c, rfl, rfl, rfl,
      fun r hr => readReg_writeReg_ne _ d r _ hr, fun _ => rfl, rfl, rfl, rfl, rfl⟩
  · exact exec_inp_endOfFile d (nextInput_endOfFile hempty heof)
  · exact exec_inp_waiting d (nextInput_waiting.2 ⟨hempty, hsilent⟩)

end Sys2Proof.Machine
end

section
/-! SUPPORT. A well-formed instruction raises no error at an operand: what it raises, it raises after its operands are read
(30_encoding.md section 4; 60_exceptions.md R172, R173). -/

namespace Sys2Proof.Machine

/-- An error that is raised after the operands are read. -/
def IsLate (k : FaultKind) : Prop := k ≠ .illegalWord ∧ k ≠ .expectedRegister

theorem not_faultsWith_of_run {s t : State} {k : FaultKind} {op : Option Cell} {off : Option Offending}
    (h : t.run ≠ .faulted) : ¬ FaultsWith (.next t) s k op off := fun hf =>
  h (congrArg State.run (Host.Outcome.next.inj hf))

theorem kind_of_faultsWith {s : State} {r : Raised} {c : Cell} {k : FaultKind} {op : Option Cell} {off : Option Offending}
    (h : FaultsWith (takeFault s c r) s k op off) : r.kind = k :=
  congrArg FaultRecord.kind (Option.some.inj (congrArg State.fault (Host.Outcome.next.inj h)))

theorem isLate_of_takeFault {s : State} {r : Raised} {c : Cell} {k : FaultKind} {op : Option Cell}
    {off : Option Offending} (hr : IsLate r.kind) (h : FaultsWith (takeFault s c r) s k op off) : IsLate k :=
  kind_of_faultsWith h ▸ hr

/-- A reader that would raise nothing answers values. -/
theorem ok_of_no_error {α : Type} {o : Except Raised α} {f : Option Raised} (hiff : ∀ r, o = .error r ↔ f = some r)
    (hnone : f = none) : ∃ v, o = .ok v := by
  cases o with
  | ok v => exact ⟨v, rfl⟩
  | error r => exact absurd ((hiff r).1 rfl) (by simp [hnone])

theorem isLate_of_loadCell {s : State} {a : Cell} {r : Raised} (h : loadCell s a = .error r) : IsLate r.kind := by
  rcases loadCell_error h with ⟨-, rfl⟩ | ⟨-, -, rfl⟩ <;> simp [IsLate]

theorem isLate_of_checkAddress {s : State} {a : Cell} {r : Raised} (h : checkAddress s a = .error r) : IsLate r.kind := by
  obtain ⟨-, rfl⟩ := checkAddress_error h
  simp [IsLate]

theorem isLate_of_returnAddress {s : State} {r : Raised} (h : returnAddress s = .error r) : IsLate r.kind := by
  obtain ⟨-, rfl⟩ := returnAddress_error h
  simp [IsLate]

/-- With its operands read, an instruction runs on or raises a late error. -/
theorem isLate_of_faultsWith {i : Instr} {s : State} {k : FaultKind} {op : Option Cell} {off : Option Offending}
    (hrun : s.run = .running) (hnone : operandFault i = none) (h : FaultsWith (exec i s) s k op off) : IsLate k := by
  have hs : s.run ≠ .faulted := by simp [hrun]
  cases i with
  | halt => exact absurd h (not_faultsWith_of_run nofun)
  | noop => exact absurd h (not_faultsWith_of_run hs)
  | set a b | not a b =>
    obtain ⟨⟨d, x⟩, hread⟩ := ok_of_no_error (fun _ => readRV_eq_error (s := s)) hnone
    simp only [exec, execSet, execNot, hread] at h
    exact absurd h (not_faultsWith_of_run hs)
  | push a | jmp a =>
    obtain ⟨x, hread⟩ := ok_of_no_error (fun _ => resolve_eq_error (s := s)) hnone
    simp only [exec, execPush, execJmp, hread] at h
    exact absurd h (not_faultsWith_of_run hs)
  | jt a b | jf a b =>
    obtain ⟨⟨x, y⟩, hread⟩ := ok_of_no_error (fun _ => readVV_eq_error (s := s)) hnone
    simp only [exec, execJt, execJf, hread] at h
    split at h <;> exact absurd h (not_faultsWith_of_run hs)
  | eq a b c | gt a b c | add a b c | mult a b c | and a b c | or a b c =>
    obtain ⟨⟨d, x, y⟩, hread⟩ := ok_of_no_error (fun _ => readRVV_eq_error (s := s)) hnone
    simp only [exec, execEq, execGt, execAdd, execMult, execAnd, execOr, hread] at h
    exact absurd h (not_faultsWith_of_run hs)
  | mod a b c =>
    obtain ⟨⟨d, x, y⟩, hread⟩ := ok_of_no_error (fun _ => readRVV_eq_error (s := s)) hnone
    simp only [exec, execMod, hread] at h
    split at h
    · exact isLate_of_takeFault (by simp [IsLate]) h
    · exact absurd h (not_faultsWith_of_run hs)
  | pop a =>
    obtain ⟨d, hread⟩ := ok_of_no_error (fun _ => asReg_eq_error) hnone
    simp only [exec, execPop, hread] at h
    split at h
    · exact isLate_of_takeFault (by simp [IsLate]) h
    · exact absurd h (not_faultsWith_of_run hs)
  | rmem a b =>
    obtain ⟨⟨d, x⟩, hread⟩ := ok_of_no_error (fun _ => readRV_eq_error (s := s)) hnone
    simp only [exec, execRmem, hread] at h
    split at h
    · next r hload => exact isLate_of_takeFault (isLate_of_loadCell hload) h
    · exact absurd h (not_faultsWith_of_run hs)
  | wmem a b =>
    obtain ⟨⟨x, y⟩, hread⟩ := ok_of_no_error (fun _ => readVV_eq_error (s := s)) hnone
    simp only [exec, execWmem, hread] at h
    split at h
    · next r haddress => exact isLate_of_takeFault (isLate_of_checkAddress haddress) h
    · exact absurd h (not_faultsWith_of_run hs)
  | call a =>
    obtain ⟨x, hread⟩ := ok_of_no_error (fun _ => resolve_eq_error (s := s)) hnone
    simp only [exec, execCall, hread] at h
    split at h
    · next r hback => exact isLate_of_takeFault (isLate_of_returnAddress hback) h
    · exact absurd h (not_faultsWith_of_run hs)
  | ret =>
    simp only [exec, execRet, retOnEmpty] at h
    split at h
    · split at h
      · exact isLate_of_takeFault (by simp [IsLate]) h
      · exact absurd h (not_faultsWith_of_run nofun)
    · exact absurd h (not_faultsWith_of_run hs)
  | out a =>
    obtain ⟨x, hread⟩ := ok_of_no_error (fun _ => resolve_eq_error (s := s)) hnone
    simp only [exec, execOut, hread] at h
    split at h
    · exact isLate_of_takeFault (by simp [IsLate]) h
    · next u hemit =>
      obtain ⟨w, rfl⟩ := emitChar_accepted hemit
      exact absurd h (not_faultsWith_of_run hs)
  | inp a =>
    obtain ⟨d, hread⟩ := ok_of_no_error (fun _ => asReg_eq_error) hnone
    simp only [exec, execInp, hread] at h
    split at h
    · exact absurd h (not_faultsWith_of_run hs)
    · exact isLate_of_takeFault (by simp [IsLate]) h
    · next v u hinput =>
      obtain ⟨buf, e, rfl, -⟩ := nextInput_code hinput
      exact absurd h (not_faultsWith_of_run hs)

/-- Settles O10: an ill-formed instruction takes the error its operands raise, a well-formed one raises late errors only. -/
theorem operandFaultsAreExactlyIllFormed : Obligations.OperandFaultsAreExactlyIllFormed := by
  intro i s hrun
  constructor
  · intro hill
    cases hop : operandFault i with
    | none => exact absurd (operandFault_eq_none.1 hop) (Bool.eq_false_iff.1 hill)
    | some r =>
      have hfaults := faultsWith_of_operandFault s rfl hop
      obtain ⟨c, rfl | rfl⟩ := isOperandFault_of_operandFault hop
      · exact ⟨c, .inl hfaults⟩
      · exact ⟨c, .inr hfaults⟩
  · rintro ⟨c, hfaults⟩
    refine Bool.eq_false_iff.2 fun hwf => ?_
    have hnone := operandFault_eq_none.2 hwf
    rcases hfaults with hillegal | hexpected
    · exact (isLate_of_faultsWith hrun hnone hillegal).1 rfl
    · exact (isLate_of_faultsWith hrun hnone hexpected).2 rfl

end Sys2Proof.Machine
end

section
/-! SUPPORT. Noninterference: a change of the state that no operation of an instruction looks at goes through its execution
unchanged. Memory, the input and the emitted output are such changes for all instructions but those named (10_state.md section 5;
20_memory.md R50; 50_interfaces.md sections 3 and 4). -/

namespace Sys2Proof.Machine

/-- A change of the state that keeps registers, stack, pc and what `ret` and `out` ask of the parameters, and that commutes with
every operation but those on memory and input. -/
structure Unobserved (f : State → State) : Prop where
  regs : ∀ s, (f s).regs = s.regs
  stack : ∀ s, (f s).stack = s.stack
  pc : ∀ s, (f s).pc = s.pc
  retEmpty : ∀ s, (f s).env.retEmpty = s.env.retEmpty
  writesLeft : ∀ s, (f s).env.writesLeft = s.env.writesLeft
  comm_writeReg : ∀ s d v, f (writeReg s d v) = writeReg (f s) d v
  comm_withStack : ∀ s l, f (withStack s l) = withStack (f s) l
  comm_advance : ∀ s n, f (advance s n) = advance (f s) n
  comm_jumpTo : ∀ s x, f (jumpTo s x) = jumpTo (f s) x
  comm_haltRun : ∀ s, f (haltRun s) = haltRun (f s)
  comm_faulted : ∀ s op r, f (faulted s op r) = faulted (f s) op r
  comm_emit : ∀ s v w, f { s with output := s.output ++ [v], env := { s.env with writesLeft := w } } =
    { f s with output := (f s).output ++ [v], env := { (f s).env with writesLeft := w } }

/-- It keeps memory and what the data access of rmem and wmem asks of the parameters. -/
structure KeepsMemory (f : State → State) : Prop where
  mem : ∀ s, (f s).mem = s.mem
  beyondImage : ∀ s, (f s).env.beyondImage = s.env.beyondImage
  rmemHigh : ∀ s, (f s).env.rmemHigh = s.env.rmemHigh
  comm_storeCell : ∀ s a v, f (storeCell s a v) = storeCell (f s) a v

/-- It keeps the input buffer and the host's answers. -/
structure KeepsInput (f : State → State) : Prop where
  inbuf : ∀ s, (f s).inbuf = s.inbuf
  env : ∀ s, (f s).env = s.env
  comm_inbuf : ∀ s q, f { s with inbuf := q } = { f s with inbuf := q }
  comm_input : ∀ s q e, f { s with inbuf := q, env := e } = { f s with inbuf := q, env := e }

/-- An answer of NextInput with a change made to the state it leaves. -/
def InputResult.map (f : State → State) : InputResult → InputResult
  | .code v s => .code v (f s)
  | .endOfFile => .endOfFile
  | .waiting => .waiting

theorem KeepsInput.comm_nextInput {f : State → State} (hi : KeepsInput f) (s : State) :
    nextInput (f s) = (nextInput s).map f := by
  unfold nextInput
  rw [hi.inbuf]
  cases s.inbuf with
  | cons c rest => exact congrArg (InputResult.code c) (hi.comm_inbuf s rest).symm
  | nil =>
    rw [hi.env]
    cases nextAnswer s.env with
    | none => rfl
    | some p =>
      obtain ⟨answer, e⟩ := p
      match answer with
      | .endOfFile | .line [] => rfl
      | .line (c :: rest) => exact congrArg (InputResult.code c) (hi.comm_input s rest e).symm

/-- Whether a data address exists depends on BEYOND_IMAGE only. -/
theorem checkAddress_congr {s t : State} (h : t.env.beyondImage = s.env.beyondImage) (a : Cell) :
    checkAddress t a = checkAddress s a := by
  simp only [checkAddress, memBound_congr h]

/-- What a load answers depends on the one cell, BEYOND_IMAGE and RMEM_HIGH. -/
theorem loadCell_congr {s t : State} {a : Cell} (hbeyond : t.env.beyondImage = s.env.beyondImage)
    (hhigh : t.env.rmemHigh = s.env.rmemHigh) (hcell : memRead t.mem a.toNat = memRead s.mem a.toNat) :
    loadCell t a = loadCell s a := by
  simp only [loadCell, checkAddress_congr hbeyond, hhigh, hcell]

namespace Unobserved

variable {f : State → State} (hf : Unobserved f)
include hf

theorem resolve_eq (s : State) (a : Operand) : resolve (f s) a = resolve s a := by
  cases a with
  | literal v | invalid c => rfl
  | register r => simp only [resolve_register, readReg, hf.regs]

theorem readRV_eq (s : State) (a b : Operand) : readRV (f s) a b = readRV s a b := by
  simp only [readRV, hf.resolve_eq]

theorem readVV_eq (s : State) (a b : Operand) : readVV (f s) a b = readVV s a b := by
  simp only [readVV, hf.resolve_eq]

theorem readRVV_eq (s : State) (a b c : Operand) : readRVV (f s) a b c = readRVV s a b c := by
  simp only [readRVV, hf.readVV_eq]

theorem returnAddress_eq (s : State) : returnAddress (f s) = returnAddress s := by
  simp only [returnAddress, hf.pc]

theorem comm_pushEntry (s : State) (v : Cell) : f (pushEntry s v) = pushEntry (f s) v :=
  (hf.comm_withStack s (v :: s.stack)).trans (by rw [pushEntry, hf.stack, withStack])

theorem comm_takeFault (s : State) (op : Cell) (r : Raised) : takeFault (f s) op r = mapNext f (takeFault s op r) :=
  congrArg Host.Outcome.next (hf.comm_faulted s (some op) r).symm

/-- A result in a register, then the fall-through. -/
theorem comm_result (s : State) (d : RegIx) (v : Cell) (n : Nat) :
    Host.Outcome.next (advance (writeReg (f s) d v) n) =
      (mapNext f (.next (advance (writeReg s d v) n)) : Result) := by
  rw [mapNext, hf.comm_advance, hf.comm_writeReg]

theorem comm_emitChar {s t : State} {v : Cell} (h : emitChar s v = .accepted t) :
    emitChar (f s) v = .accepted (f t) := by
  have haccepts : s.env.writesLeft ≠ some 0 := fun hnone => by rw [emitChar_failed.2 hnone] at h; cases h
  rw [emitChar_of_accepts v haccepts] at h
  cases h
  rw [emitChar_of_accepts v (hf.writesLeft s ▸ haccepts), hf.comm_emit, hf.writesLeft]

/-- Every instruction but rmem, wmem and `in` works with the operations that the change commutes with. -/
theorem comm_exec {i : Instr} (s : State) (hrmem : ∀ a b, i ≠ .rmem a b) (hwmem : ∀ a b, i ≠ .wmem a b)
    (hinp : ∀ a, i ≠ .inp a) : exec i (f s) = mapNext f (exec i s) := by
  cases i with
  | rmem a b => exact absurd rfl (hrmem a b)
  | wmem a b => exact absurd rfl (hwmem a b)
  | inp a => exact absurd rfl (hinp a)
  | halt => exact congrArg Host.Outcome.next (hf.comm_haltRun s).symm
  | noop => exact congrArg Host.Outcome.next (hf.comm_advance s 1).symm
  | set a b | not a b =>
    simp only [exec, execSet, execNot, hf.readRV_eq]
    cases readRV s a b with
    | error r => exact hf.comm_takeFault s _ r
    | ok p => exact hf.comm_result s _ _ _
  | eq a b c | gt a b c | add a b c | mult a b c | and a b c | or a b c =>
    simp only [exec, execEq, execGt, execAdd, execMult, execAnd, execOr, hf.readRVV_eq]
    cases readRVV s a b c with
    | error r => exact hf.comm_takeFault s _ r
    | ok p => exact hf.comm_result s _ _ _
  | mod a b c =>
    simp only [exec, execMod, hf.readRVV_eq]
    cases readRVV s a b c with
    | error r => exact hf.comm_takeFault s _ r
    | ok p =>
      dsimp only
      split
      · exact hf.comm_takeFault s _ _
      · exact hf.comm_result s _ _ _
  | push a =>
    simp only [exec, execPush, hf.resolve_eq]
    cases resolve s a with
    | error r => exact hf.comm_takeFault s _ r
    | ok x => simp only [mapNext, hf.comm_advance, hf.comm_pushEntry]
  | pop a =>
    simp only [exec, execPop, hf.stack]
    cases asReg a with
    | error r => exact hf.comm_takeFault s _ r
    | ok d =>
      cases s.stack with
      | nil => exact hf.comm_takeFault s _ _
      | cons v rest => simp only [mapNext, hf.comm_advance, hf.comm_writeReg, hf.comm_withStack]
  | jmp a =>
    simp only [exec, execJmp, hf.resolve_eq]
    cases resolve s a with
    | error r => exact hf.comm_takeFault s _ r
    | ok x => simp only [mapNext, hf.comm_jumpTo]
  | jt a b | jf a b =>
    simp only [exec, execJt, execJf, hf.readVV_eq]
    cases readVV s a b with
    | error r => exact hf.comm_takeFault s _ r
    | ok p =>
      dsimp only [mapNext]
      split <;> simp only [hf.comm_jumpTo, hf.comm_advance]
  | call a =>
    simp only [exec, execCall, hf.resolve_eq, hf.returnAddress_eq]
    cases resolve s a with
    | error r => exact hf.comm_takeFault s _ r
    | ok x =>
      cases returnAddress s with
      | error r => exact hf.comm_takeFault s _ r
      | ok back => simp only [mapNext, hf.comm_jumpTo, hf.comm_pushEntry]
  | ret =>
    simp only [exec, execRet, retOnEmpty, hf.stack, hf.retEmpty]
    cases s.stack with
    | nil =>
      cases s.env.retEmpty with
      | fault => exact hf.comm_takeFault s _ _
      | halt => exact congrArg Host.Outcome.next (hf.comm_haltRun s).symm
    | cons x rest => simp only [mapNext, hf.comm_jumpTo, hf.comm_withStack]
  | out a =>
    simp only [exec, execOut, hf.resolve_eq]
    cases resolve s a with
    | error r => exact hf.comm_takeFault s _ r
    | ok x =>
      dsimp only
      cases hemit : emitChar s (usedAs .code x) with
      | failed =>
        have hfail : emitChar (f s) (usedAs .code x) = .failed :=
          emitChar_failed.2 ((hf.writesLeft s).trans (emitChar_failed.1 hemit))
        simp only [hfail, hf.comm_takeFault]
      | accepted t => simp only [hf.comm_emitChar hemit, mapNext, hf.comm_advance]

/-- rmem needs no more than the one cell it loads. -/
theorem comm_exec_rmem {s : State} (a : Operand) {b : Operand}
    (hload : ∀ ea, DataAddress s b ea → loadCell (f s) ea = loadCell s ea) :
    exec (.rmem a b) (f s) = mapNext f (exec (.rmem a b) s) := by
  simp only [exec, execRmem, hf.readRV_eq]
  cases hread : readRV s a b with
  | error r => exact hf.comm_takeFault s _ r
  | ok p =>
    obtain ⟨d, x⟩ := p
    simp only [hload _ ⟨x, (readRV_ok.1 hread).2, rfl⟩]
    cases loadCell s (usedAs .address x) with
    | error r => exact hf.comm_takeFault s _ r
    | ok v => exact hf.comm_result s _ _ _

theorem comm_exec_wmem (hm : KeepsMemory f) (s : State) (a b : Operand) :
    exec (.wmem a b) (f s) = mapNext f (exec (.wmem a b) s) := by
  simp only [exec, execWmem, hf.readVV_eq, checkAddress_congr (hm.beyondImage s)]
  cases readVV s a b with
  | error r => exact hf.comm_takeFault s _ r
  | ok p =>
    obtain ⟨x, y⟩ := p
    dsimp only
    cases checkAddress s (usedAs .address x) with
    | error r => exact hf.comm_takeFault s _ r
    | ok _ => simp only [mapNext, hf.comm_advance, hm.comm_storeCell]

theorem comm_exec_inp (hi : KeepsInput f) (s : State) (a : Operand) :
    exec (.inp a) (f s) = mapNext f (exec (.inp a) s) := by
  simp only [exec, execInp, hi.comm_nextInput]
  cases asReg a with
  | error r => exact hf.comm_takeFault s _ r
  | ok d =>
    cases nextInput s with
    | waiting => rfl
    | endOfFile => exact hf.comm_takeFault s _ _
    | code v t => exact hf.comm_result t _ _ _

end Unobserved

/-! ### Memory -/

/-- The state with another memory. -/
def withMemory (m : Memory) (s : State) : State := { s with mem := m }

theorem unobserved_withMemory (m : Memory) : Unobserved (withMemory m) := by
  constructor <;> intros <;> rfl

theorem keepsInput_withMemory (m : Memory) : KeepsInput (withMemory m) := by
  constructor <;> intros <;> rfl

/-- An operand gives one address. -/
theorem dataAddress_unique {s : State} {a : Operand} {ea ea' : Cell} (h : DataAddress s a ea) (h' : DataAddress s a ea') :
    ea = ea' := by
  obtain ⟨x, hx, rfl⟩ := h
  obtain ⟨y, hy, rfl⟩ := h'
  cases hx.symm.trans hy
  rfl

theorem exec_mem {i : Instr} {s t : State} (h : exec i s = .next t) (hi : ∀ a b, i ≠ .wmem a b) : t.mem = s.mem := by
  rcases (exec_cases h).mem with hmem | ⟨a, b, -, -, hwmem, -⟩
  · exact hmem
  · exact absurd hwmem (hi a b)

theorem sameMemBut_of_exec_wmem {s t : State} {a b : Operand} {ea : Cell} (h : exec (.wmem a b) s = .next t)
    (ha : DataAddress s a ea) : SameMemBut ea.toNat s t := by
  rcases (exec_cases h).mem with hmem | ⟨a', b', ea', y, hi, ha', -, -, hmem⟩
  · intro k _; rw [hmem]
  · cases hi
    cases dataAddress_unique ha ha'
    intro k hk
    rw [hmem, memRead_memWriteCell, if_neg hk]

/-- What wmem does besides its store is the same in any memory. -/
theorem exec_wmem_withMemory (s : State) (m : Memory) (a b : Operand) :
    mapNext (withMemory []) (exec (.wmem a b) (withMemory m s)) = mapNext (withMemory []) (exec (.wmem a b) s) := by
  have hbeyond : (withMemory m s).env.beyondImage = s.env.beyondImage := rfl
  simp only [exec, execWmem, (unobserved_withMemory m).readVV_eq, checkAddress_congr hbeyond]
  cases readVV s a b with
  | error r => rfl
  | ok p =>
    obtain ⟨x, y⟩ := p
    dsimp only
    cases checkAddress s (usedAs .address x) <;> rfl

/-- Settles O41: memory is unobserved by all but rmem and wmem; these two see it through `loadCell` and `storeCell` only. -/
theorem onlyRmemAndWmemReachMemory : Obligations.OnlyRmemAndWmemReachMemory := by
  refine ⟨fun _ _ _ => dataAddress_word, fun _ _ _ => exec_mem, fun i s m hwmem hrmem => ?_, fun s m a b hagree => ?_,
    fun _ _ _ _ _ => sameMemBut_of_exec_wmem, exec_wmem_withMemory⟩
  · by_cases hinp : ∃ a, i = .inp a
    · obtain ⟨a, rfl⟩ := hinp
      exact (unobserved_withMemory m).comm_exec_inp (keepsInput_withMemory m) s a
    · exact (unobserved_withMemory m).comm_exec s hrmem hwmem fun a hi => hinp ⟨a, hi⟩
  · exact (unobserved_withMemory m).comm_exec_rmem a fun ea ha => loadCell_congr rfl rfl (hagree ea ha)

/-! ### Memory kept: input and output -/

/-- A change that keeps memory is unobserved by rmem and wmem too. -/
theorem Unobserved.comm_exec_of_keepsMemory {f : State → State} (hf : Unobserved f) (hm : KeepsMemory f) {i : Instr}
    (s : State) (hinp : ∀ a, i ≠ .inp a) : exec i (f s) = mapNext f (exec i s) := by
  by_cases hrmem : ∃ a b, i = .rmem a b
  · obtain ⟨a, b, rfl⟩ := hrmem
    exact hf.comm_exec_rmem a fun ea _ => loadCell_congr (hm.beyondImage s) (hm.rmemHigh s) (by rw [hm.mem])
  · by_cases hwmem : ∃ a b, i = .wmem a b
    · obtain ⟨a, b, rfl⟩ := hwmem
      exact hf.comm_exec_wmem hm s a b
    · exact hf.comm_exec s (fun a b hi => hrmem ⟨a, b, hi⟩) (fun a b hi => hwmem ⟨a, b, hi⟩) hinp

/-- The state with another input buffer and other answers of the host to come. -/
def withInput (q : List Word) (ans : List HostAnswer) (l : LaterAnswers) (s : State) : State :=
  { s with inbuf := q, env := { s.env with answers := ans, later := l } }

theorem unobserved_withInput (q : List Word) (ans : List HostAnswer) (l : LaterAnswers) :
    Unobserved (withInput q ans l) := by
  constructor <;> intros <;> rfl

theorem keepsMemory_withInput (q : List Word) (ans : List HostAnswer) (l : LaterAnswers) :
    KeepsMemory (withInput q ans l) := by
  constructor <;> intros <;> rfl

/-- Settles O44: the input is unobserved by all but `in`. -/
theorem onlyInReachesTheInput : Obligations.OnlyInReachesTheInput := fun _ s q ans l hinp =>
  (unobserved_withInput q ans l).comm_exec_of_keepsMemory (keepsMemory_withInput q ans l) s hinp

/-- The state with some codes put before its output. -/
def withOutputBefore (o : List Cell) (s : State) : State := { s with output := o ++ s.output }

theorem unobserved_withOutputBefore (o : List Cell) : Unobserved (withOutputBefore o) where
  regs _ := rfl
  stack _ := rfl
  pc _ := rfl
  retEmpty _ := rfl
  writesLeft _ := rfl
  comm_writeReg _ _ _ := rfl
  comm_withStack _ _ := rfl
  comm_advance _ _ := rfl
  comm_jumpTo _ _ := rfl
  comm_haltRun _ := rfl
  comm_faulted _ _ _ := rfl
  comm_emit s v w := by simp only [withOutputBefore, List.append_assoc]

theorem keepsMemory_withOutputBefore (o : List Cell) : KeepsMemory (withOutputBefore o) := by
  constructor <;> intros <;> rfl

theorem keepsInput_withOutputBefore (o : List Cell) : KeepsInput (withOutputBefore o) := by
  constructor <;> intros <;> rfl

theorem exec_withOutputBefore (i : Instr) (s : State) (o : List Cell) :
    exec i (withOutputBefore o s) = mapNext (withOutputBefore o) (exec i s) := by
  by_cases hinp : ∃ a, i = .inp a
  · obtain ⟨a, rfl⟩ := hinp
    exact (unobserved_withOutputBefore o).comm_exec_inp (keepsInput_withOutputBefore o) s a
  · exact (unobserved_withOutputBefore o).comm_exec_of_keepsMemory (keepsMemory_withOutputBefore o) s
      fun a hi => hinp ⟨a, hi⟩

/-- A fetch looks at memory, pc and the bound only. -/
theorem fetchCells_congr {s t : State} (hmem : t.mem = s.mem) (henv : t.env = s.env) (n a : Nat) :
    fetchCells t n a = fetchCells s n a := by
  induction n generalizing a with
  | zero => rfl
  | succ n ih => simp only [fetchCells, hmem, henv, ih]

theorem fetchInstr_withOutputBefore (s : State) (o : List Cell) : fetchInstr (withOutputBefore o s) = fetchInstr s := by
  have hwindow : fetchWindow (withOutputBefore o s) = fetchWindow s := fetchCells_congr rfl rfl 4 s.pc.toNat
  rw [fetchInstr, fetchInstr, hwindow]
  rfl

/-- Settles O46: neither the fetch nor any instruction looks at the emitted output. -/
theorem emittedOutputIsNeverRead : Obligations.EmittedOutputIsNeverRead := by
  intro s o
  show step (withOutputBefore o s) = mapNext (withOutputBefore o) (step s)
  cases hrun : s.run with
  | halted => rw [step_halted hrun, step_halted (s := withOutputBefore o s) hrun, mapNext]
  | faulted => rw [step_faulted hrun, step_faulted (s := withOutputBefore o s) hrun, mapNext]
  | running =>
    rw [step_running s hrun, step_running (withOutputBefore o s) hrun, fetchInstr_withOutputBefore]
    cases fetchInstr s with
    | instr i => exact exec_withOutputBefore i s o
    | raised op r => rfl

end Sys2Proof.Machine
end
